-- ==== Sys2Proof/Word.lean ====
section
/-! DEFINITION. The words, levels, lines and directions of the I2C bit-bang master (spec/00_scope.md
R7, R8; spec/10_state.md R21, R22; spec/30_encoding.md R70). -/

namespace Sys2Proof

/-- A command word or a response word: 16 bits (R32, R70). -/
abbrev Word := BitVec 16

/-- A byte: 8 bits, bit 7 its most significant (R7). -/
abbrev Byte := BitVec 8

/-- The logic level of a wire: `true` is 1, `false` is 0 (R8). -/
abbrev Level := Bool

/-- The block's two lines (R8, R21): the clock line C (SCL) and the data line D (SDA). -/
inductive Line where
  | c
  | d
  deriving DecidableEq, Repr

/-- A line's direction (R8, R22): released (input, no internal pull-up), or driven low. -/
inductive Dir where
  | rel
  | low
  deriving DecidableEq, Repr

end Sys2Proof
end

