-- ==== Sys2Proof/Syntax.lean ====
section
/-! DEFINITION. The commands of BBM-16, one constructor per row of spec/opcode_table.json
(spec/30_encoding.md R74). -/

namespace Sys2Proof

/-- A command of the block (R74). `rd` carries the line field of format L, as its word does; only
the data line makes a legal command of it (R76(f), C5): see `Instr.wellFormed`. -/
inductive Instr where
  /-- `REL l` (R106). -/
  | rel (l : Line)
  /-- `LOW l` (R107). -/
  | low (l : Line)
  /-- `RD l` (R108), legal for the data line only. -/
  | rd (l : Line)
  /-- `START` (R122). -/
  | start
  /-- `STOP` (R123). -/
  | stop
  /-- `WRB b` (R127): the byte to send. -/
  | wrb (b : Byte)
  /-- `RDB k` (R130): `true` sends ACK, `false` sends NACK (R73). -/
  | rdb (sendAck : Bool)
  deriving DecidableEq, Repr

end Sys2Proof
end

