-- ==== Sys2Proof/Machine/Event.lean ====
section
/-! DEFINITION. The micro-steps and the events of the event trace (spec/00_scope.md R10;
spec/10_state.md R35; spec/40_line_controller.md R100 to R103). -/

namespace Sys2Proof.Machine

/-- Where a sample goes: to the sampled level (`v <- rd()` of R108, `s <- rd()` of R127), or to bit
`i` of the shift register (`s <- rd(); v[i] <- s` of R130). -/
inductive Dest where
  | level
  | bit (i : Fin 8)
  deriving DecidableEq, Repr

/-- The four micro-steps, the only operations on the lines (R10, R104). -/
inductive Micro where
  /-- `rel(l)` (R100). -/
  | rel (l : Line)
  /-- `low(l)` (R101). -/
  | low (l : Line)
  /-- `rd()` (R102), on the data line only, with the place its value goes to. -/
  | rd (dst : Dest)
  /-- `wait()` (R103). -/
  | wait
  deriving DecidableEq, Repr

/-- The events of the event trace (R35). -/
inductive Event where
  | issue (w : Word)
  | rel (l : Line)
  | low (l : Line)
  | rd (v : Level)
  | wait
  deriving DecidableEq, Repr

/-- An event trace, oldest event first (R35). -/
abbrev Trace := List Event

/-- The line trace: "the trace with every `Wait` removed" (R35). -/
def lineTrace (tr : Trace) : Trace := tr.filter (fun e => e != .wait)

/-- How many further `wait()` steps an implementation adds after a micro-step (R121), as a function
of the traces of earlier runs and of the trace so far. -/
abbrev Slack := List Trace → Trace → Nat

end Sys2Proof.Machine
end

