-- ==== Sys2Proof/Config.lean ====
section
/-! DEFINITION. The parameters the spec leaves OPEN (spec/00_scope.md R5) and the free values of the
model: constants without a body, so that nothing can be proved of the value they take. -/

namespace Sys2Proof

open Sys2Proof.Machine (Trace)

/-- `T_DELAY`, the inter-phase delay in microseconds, greater than 0 (R5, D8). No rule of the untimed
model reads it; only the informative durations of R195 do. -/
opaque Config.tDelay : ℕ+

/-- `T_SU`, the least time between two line micro-steps in nanoseconds, 0 or more (R5, D9). -/
opaque Config.tSu : Nat

/-- `PIN_SCL`, the host GPIO identifier of the clock line (R5). -/
opaque Config.pinScl : Nat

/-- `PIN_SDA`, the host GPIO identifier of the data line (R5). -/
opaque Config.pinSda : Nat

/-- `PULLUPS`: external pull-up resistors are present on both lines (R5, D22). -/
opaque Config.pullups : Bool

/-- `Env` (R5, R27, D10): the level a sample of the data wire takes, an oracle that has seen the
traces of the runs before the last reset and the trace so far. A free value (log entry 1). -/
opaque Config.envSample : List Trace → Trace → Level

/-- The number of further `wait()` steps this implementation adds after a micro-step, given the
trace up to and with that micro-step (R121, D7). A free value (log entry 3). -/
opaque Config.extraWaits : List Trace → Trace → Nat

/-- The level of a released, undriven wire without pull-ups, "not given by any source" (R25, D22).
A free value of the line and the trace (log entry 10). -/
opaque Config.floatingLevel : Line → List Trace → Trace → Level

end Sys2Proof
end

