-- ==== Sys2Proof/WellFormed.lean ====
section
/-! DEFINITION. Which terms of `Instr` are commands of the block (spec/30_encoding.md R76(f)). -/

namespace Sys2Proof

/-- `RD` is defined on the data line only: "reading the clock line spells no command" (R76(f), C5).
Every other operand is legal at every value its type admits (R72, R73). -/
def Instr.wellFormed : Instr → Bool
  | .rel _ => true
  | .low _ => true
  | .rd l => l == .d
  | .start => true
  | .stop => true
  | .wrb _ => true
  | .rdb _ => true

/-- The check as a proposition. -/
abbrev WellFormed (i : Instr) : Prop := i.wellFormed = true

end Sys2Proof
end

