-- ==== Sys2Proof/Decode.lean ====
section
/-! DEFINITION. The command encoding BBM-16: the fields of a word, the decoder, the encoder, the
opcode map and the illegal words (spec/30_encoding.md R70 to R78). -/

namespace Sys2Proof

/-! ### Fields (R71) -/

/-- `OP = w[15:12]`. -/
def opField (w : Word) : BitVec 4 := w.extractLsb' 12 4

/-- `Z = w[11:9]`, reserved, must be zero. -/
def zField (w : Word) : BitVec 3 := w.extractLsb' 9 3

/-- `F = w[8]`: the line select `L` or the ACK select `K`. -/
def fField (w : Word) : Bool := w.getLsbD 8

/-- `DATA = w[7:0]`. -/
def dataField (w : Word) : Byte := w.extractLsb' 0 8

/-- The word `{op, z, f, data}`: each field at its place of R71. -/
def ofFields (op : BitVec 4) (z : BitVec 3) (f : Bool) (data : Byte) : Word :=
  op.zeroExtend 16 <<< 12 ||| z.zeroExtend 16 <<< 9 ||| (BitVec.ofBool f).zeroExtend 16 <<< 8
    ||| data.zeroExtend 16

/-- `line = (L = 1) ? D : C` (R73). -/
def lineOfSelect (f : Bool) : Line := if f then .d else .c

/-- The line select bit of a line (R72, R73). -/
def selectOfLine : Line → Bool
  | .c => false
  | .d => true

/-! ### Decoding (R76, R77) -/

/-- Why a word is illegal: the classes (a) to (f) of R76. -/
inductive IllegalReason where
  /-- (a) `OP` is 0x0 or in 0x8..0xF. -/
  | opcode
  /-- (b) `Z` is not zero. -/
  | reservedZ
  /-- (c) format N with `F` or `DATA` not zero. -/
  | formatN
  /-- (d) format L or K with `DATA` not zero. -/
  | formatLK
  /-- (e) format B with `F` not zero. -/
  | formatB
  /-- (f) `RD` of the clock line. -/
  | readClock
  deriving DecidableEq, Repr

/-- What a word decodes to: exactly one command, or illegal (R77). -/
inductive Decoded where
  | ok (i : Instr)
  | illegal (r : IllegalReason)
  deriving DecidableEq, Repr

/-- The decoder of R77, total on all words. It names the first class of R76 that R77's order meets. -/
def decode (w : Word) : Decoded :=
  if zField w ≠ 0 then .illegal .reservedZ
  else match (opField w).toNat with
    | 1 => if dataField w = 0 then .ok (.rel (lineOfSelect (fField w))) else .illegal .formatLK
    | 2 => if dataField w = 0 then .ok (.low (lineOfSelect (fField w))) else .illegal .formatLK
    | 3 =>
      if dataField w = 0 then
        if fField w then .ok (.rd .d) else .illegal .readClock
      else .illegal .formatLK
    | 4 => if dataField w = 0 ∧ fField w = false then .ok .start else .illegal .formatN
    | 5 => if dataField w = 0 ∧ fField w = false then .ok .stop else .illegal .formatN
    | 6 => if fField w = false then .ok (.wrb (dataField w)) else .illegal .formatB
    | 7 => if dataField w = 0 then .ok (.rdb (fField w)) else .illegal .formatLK
    | _ => .illegal .opcode

/-- The decoded command, if the word is legal. -/
def Decoded.toOption : Decoded → Option Instr
  | .ok i => some i
  | .illegal _ => none

/-- The decoder on a table word: `nbits` bits of `w`, bit 0 the least significant of the one 16-bit
word a command has (R70); bits above `nbits` are zero. A number over 16 bits is no command word. -/
def decodeTableWord (nbits w : Nat) : Option Instr :=
  if w % 2 ^ nbits < 2 ^ 16 then (decode (BitVec.ofNat 16 (w % 2 ^ nbits))).toOption else none

/-! ### Encoding (R72, R74) -/

/-- The `OP` of a command (R74). -/
def opOf : Instr → BitVec 4
  | .rel _ => 0x1
  | .low _ => 0x2
  | .rd _ => 0x3
  | .start => 0x4
  | .stop => 0x5
  | .wrb _ => 0x6
  | .rdb _ => 0x7

/-- The word of a command (R72, R74). The word of the ill-formed `rd .c` is 0x3000, an illegal word. -/
def encode (i : Instr) : Word :=
  match i with
  | .rel l => ofFields (opOf i) 0 (selectOfLine l) 0
  | .low l => ofFields (opOf i) 0 (selectOfLine l) 0
  | .rd l => ofFields (opOf i) 0 (selectOfLine l) 0
  | .start => ofFields (opOf i) 0 false 0
  | .stop => ofFields (opOf i) 0 false 0
  | .wrb b => ofFields (opOf i) 0 false b
  | .rdb k => ofFields (opOf i) 0 k 0

/-! ### The opcode map as a table (R74) -/

/-- A row of the opcode map: a word `w` selects it when `w AND mask = match`. -/
structure OpcodeRow where
  mnemonic : String
  pattern : Word
  mask : Word
  deriving DecidableEq, Repr

/-- The seven rows of R74, in its order. -/
def opcodeTable : List OpcodeRow :=
  [⟨"REL", 0x1000, 0xFEFF⟩, ⟨"LOW", 0x2000, 0xFEFF⟩, ⟨"RD", 0x3100, 0xFFFF⟩,
   ⟨"START", 0x4000, 0xFFFF⟩, ⟨"STOP", 0x5000, 0xFFFF⟩, ⟨"WRB", 0x6000, 0xFF00⟩,
   ⟨"RDB", 0x7000, 0xFEFF⟩]

/-- The row's test (R74). -/
def OpcodeRow.selects (r : OpcodeRow) (w : Word) : Bool := w &&& r.mask == r.pattern

/-- The mnemonic of a command (R74). -/
def mnemonicOf : Instr → String
  | .rel _ => "REL"
  | .low _ => "LOW"
  | .rd _ => "RD"
  | .start => "START"
  | .stop => "STOP"
  | .wrb _ => "WRB"
  | .rdb _ => "RDB"

/-- R76 word for word: the classes (a) to (f) that make a word illegal. -/
def illegalWord (w : Word) : Bool :=
  let op := (opField w).toNat
  (op == 0 || 8 ≤ op)
    || zField w != 0
    || ((op == 4 || op == 5) && (fField w || dataField w != 0))
    || ((op == 1 || op == 2 || op == 3 || op == 7) && dataField w != 0)
    || (op == 6 && fField w)
    || (op == 3 && !fField w)

/-- Every legal word, in the order of R74: 2 REL, 2 LOW, 1 RD, 1 START, 1 STOP, 256 WRB, 2 RDB. -/
def legalWords : List Word :=
  [0x1000, 0x1100, 0x2000, 0x2100, 0x3100, 0x4000, 0x5000]
    ++ (List.range 256).map (fun n => BitVec.ofNat 16 (0x6000 + n))
    ++ [0x7000, 0x7100]

end Sys2Proof
end

