-- ==== Sys2Proof/Machine/State.lean ====
section
/-! DEFINITION. The state of the block, of its host and of what Env has been told to answer, as plain
data (spec/10_state.md R20 to R37), and the state after reset (R37; spec/70_reset_and_hazards.md
R180, R181). -/

namespace Sys2Proof.Machine

/-- The two line directions, written `[C D]` in the spec (R8, R22). -/
structure Dirs where
  c : Dir
  d : Dir
  deriving DecidableEq, Repr

/-- The causes of R163: one, with the code 0x01. -/
inductive Cause where
  | illegalCommand
  deriving DecidableEq, Repr

/-- The fault mark: the cause and the offending word (R34, R162). -/
structure FaultMark where
  cause : Cause
  word : Word
  deriving DecidableEq, Repr

/-- A response (R87). -/
inductive Response where
  /-- `none`: of `REL`, `LOW`, `START`, `STOP`. -/
  | none
  /-- `level(v)`: of `RD`. -/
  | level (v : Level)
  /-- `ack(a)`: of `WRB`, true iff ACK was observed. -/
  | ack (a : Bool)
  /-- `byte(v)`: of `RDB`. -/
  | byte (v : Byte)
  /-- `illegal(code, w)`: of an illegal word. -/
  | illegal (cause : Cause) (w : Word)
  deriving DecidableEq, Repr

/-- The transient sequencing state of the running command (R28). The bit index is a function of the
position: `Running.bitIndex`. -/
structure Running where
  /-- The accepted command: the block's own copy (R62). -/
  instr : Instr
  /-- The position in the command's micro-step list: how many micro-steps are done. -/
  pos : Nat
  /-- The shift register of `read_byte`. -/
  shift : Byte
  /-- The sampled level: the ACK level of `write_byte`, the level of `read`. -/
  sample : Level
  deriving DecidableEq, Repr

/-- What reaches the block from the host and from the `rst` pin, one entry at a time (R32, R172,
R180). Log entry 4 says how the entries meet the steps. -/
inductive Input where
  /-- The host offers `w` (`cmd_valid = 1`) and waits for its response (R172). -/
  | command (w : Word)
  /-- The host offers `w`; the step that accepts it ends after the first `k` micro-steps of the
  command, so that what comes next, a reset above all, can find the block busy (R180, R194). -/
  | partway (w : Word) (k : Nat)
  /-- `rst` is raised and released (R180). -/
  | reset
  deriving DecidableEq, Repr

/-- The machine's state. -/
structure State where
  /-- `dir[C]` and `dir[D]`, the block's whole register file (R22). -/
  dirs : Dirs
  /-- The transient sequencing state (R28), present exactly while `busy` is 1. -/
  seq : Option Running
  /-- The fault mark (R34). -/
  fault : Option FaultMark
  /-- The event trace, oldest first (R35). -/
  trace : List Event
  /-- The responses in completion order (R35). -/
  responses : List Response
  /-- The issue index: how many commands have completed (R33). -/
  index : Nat
  /-- The `rsp` port in its pulse: present exactly while `rsp_valid` is 1 (R32, R37, D25). -/
  rsp : Option Word
  /-- The model's own: what the host and the `rst` pin do next, oldest first. -/
  inputs : List Input
  /-- The model's own: the answers Env is constrained to give next (R27, D10). -/
  answers : List Level
  /-- The model's own: the traces of the runs before the last reset, latest first, which Env has
  seen (R27). -/
  earlier : List (List Event)
  deriving DecidableEq, Repr

/-- Why a run stops short of a successful end. -/
inductive Fault where
  /-- The run ended with its fault mark set by `IllegalCommand` on `w`: it "is never a successful
  run" (R34). Raised by `verdict` (Safety.lean) alone; a step never raises it, since the block goes
  on (R162). Safe: no claim of a successful run holds of such a run. -/
  | illegalCommand (w : Word)
  deriving DecidableEq, Repr

/-- What the model has no meaning for. -/
inductive Refusal where
  /-- An instruction without a meaning: raised by `exec`'s refused arms (none is left). Safe. -/
  | notModelled (mnemonic : String)
  /-- A host read of `rsp` while `rsp_valid` is 0: "a model refuses a read of it" (D25, I14). Raised by
  `readRsp`. Safe: no value is made up. -/
  | rspOutsidePulse
  /-- The verdict on a run that has not ended: a command is left to issue, be it after a reset (log
  entry 29), or the block is busy (R36). Raised by `verdict` (Safety.lean). Safe. -/
  | runNotEnded
  deriving DecidableEq, Repr

/-- Right after reset (R37, R180, R181): both lines released, not busy, no fault mark, empty trace, no
valid response. The responses, the index and the model's own three fields are DESIGN CHOICE (log
entries 1, 2, 4, 5). -/
def State.reset : State :=
  { dirs := ⟨.rel, .rel⟩, seq := none, fault := none, trace := [], responses := [], index := 0,
    rsp := none, inputs := [], answers := [], earlier := [] }

end Sys2Proof.Machine
end

