-- ==== Sys2Proof/Machine/Flags.lean ====
section
/-! DEFINITION. The block has no flags (spec/10_state.md R29); what it computes of its samples: the ACK
outcome, the assembly of a byte, the response and its layout on the port (spec/41_protocol_engine.md
R128, R131; spec/30_encoding.md R87, R88; spec/60_exceptions.md R163). -/

namespace Sys2Proof.Machine

/-- `ack = (s == 0)` (R128). -/
def ackOf (s : Level) : Bool := s == false

/-- `v[i] <- s` (R130). -/
def setBit (v : Byte) (i : Fin 8) (s : Level) : Byte :=
  if s then v ||| (1#8 <<< i.val) else v &&& ~~~(1#8 <<< i.val)

/-- The byte that eight samples in time order make, by `v <- ((v << 1) | s) mod 256` once per sample
(R131). -/
def assembleByte (samples : List Level) : Byte :=
  samples.foldl (fun v s => (v <<< 1) ||| (BitVec.ofBool s).zeroExtend 8) 0#8

/-- The cause code (R163). -/
def Cause.code : Cause → Byte
  | .illegalCommand => 0x01

/-- The response a command completes with (R87). -/
def responseOf (q : Running) : Response :=
  match q.instr with
  | .rel _ => .none
  | .low _ => .none
  | .rd _ => .level q.sample
  | .start => .none
  | .stop => .none
  | .wrb _ => .ack (ackOf q.sample)
  | .rdb _ => .byte q.shift

/-- `rsp[9]`, `ERR`: 1 only for `illegal` (R88). -/
def Response.err : Response → Bool
  | .illegal _ _ => true
  | .none => false
  | .level _ => false
  | .ack _ => false
  | .byte _ => false

/-- `rsp[8]`, `A`: 1 for `ack(true)`, `v` for `level(v)`, 0 otherwise (R88). -/
def Response.a : Response → Bool
  | .ack a => a
  | .level v => v
  | .none => false
  | .byte _ => false
  | .illegal _ _ => false

/-- `rsp[7:0]`: `v` for `byte(v)`, the cause code for `illegal`, 0 otherwise (R88). -/
def Response.data : Response → Byte
  | .byte v => v
  | .illegal c _ => c.code
  | .none => 0
  | .level _ => 0
  | .ack _ => 0

/-- The layout of a response on the `rsp` port, given the `OP` of the completed command: `rsp[15:12]`,
`rsp[9]`, `rsp[8]`, `rsp[7:0]`, and 0 in `rsp[11:10]` (R88). -/
def rspWord (op : BitVec 4) (r : Response) : Word :=
  op.zeroExtend 16 <<< 12 ||| (BitVec.ofBool r.err).zeroExtend 16 <<< 9
    ||| (BitVec.ofBool r.a).zeroExtend 16 <<< 8 ||| r.data.zeroExtend 16

end Sys2Proof.Machine
end

