-- ==== Sys2Proof/Machine/Operands.lean ====
section
/-! DEFINITION. The operand forms: a line, a byte sent bit by bit, an ACK select
(spec/30_encoding.md R73; spec/41_protocol_engine.md R125, R126, R130). -/

namespace Sys2Proof.Machine

/-- `dir[l]` (R9). -/
def Dirs.get (x : Dirs) : Line → Dir
  | .c => x.c
  | .d => x.d

/-- `dir[l] <- v` (R9). -/
def Dirs.set (x : Dirs) (l : Line) (v : Dir) : Dirs :=
  match l with
  | .c => { x with c := v }
  | .d => { x with d := v }

/-- `SetD(x)`: 1 releases the data line, 0 drives it low (R125, C8). -/
def setD (x : Level) : Micro := if x then .rel .d else .low .d

/-- The bits of a byte in wire order, `b[7]` first (R53, R126). -/
def bitsMsbFirst (b : Byte) : List Level :=
  [b.getLsbD 7, b.getLsbD 6, b.getLsbD 5, b.getLsbD 4,
   b.getLsbD 3, b.getLsbD 2, b.getLsbD 1, b.getLsbD 0]

/-- The bit indices of a byte transfer in wire order, `i = 7 downto 0` (R127, R130). -/
def bitIndices : List (Fin 8) := [7, 6, 5, 4, 3, 2, 1, 0]

/-- What `RDB` puts on the data line in the ninth bit: `SetD(k ? 0 : 1)` (R130). -/
def ackMicro (sendAck : Bool) : Micro := setD (!sendAck)

end Sys2Proof.Machine
end

