-- ==== Sys2Proof/Machine/Ops.lean ====
section
/-! DEFINITION. The shared operations: the four micro-steps, acceptance and completion of a command,
`IllegalCommand`, reset, and a host's read of `rsp` (spec/40_line_controller.md R100 to R105;
spec/60_exceptions.md R162, R172; spec/70_reset_and_hazards.md R180). -/

namespace Sys2Proof.Machine

/-! ### Elementary updates -/

/-- `dir[l] <- v` (R9). -/
def State.setDir (s : State) (l : Line) (v : Dir) : State := { s with dirs := s.dirs.set l v }

/-- `Record(e)` (R9, R35). -/
def State.record (s : State) (e : Event) : State := { s with trace := s.trace ++ [e] }

/-- `Sample()`: the level Env answers (R9, R27): its next constrained answer, or a free value. -/
def State.sampleLevel (s : State) : Level :=
  match s.answers with
  | v :: _ => v
  | [] => Config.envSample s.earlier s.trace

/-- Env has given its next answer. -/
def State.dropAnswer (s : State) : State := { s with answers := s.answers.tail }

/-- Put a sample where its micro-step says (R108, R127, R130). -/
def Running.store (q : Running) (dst : Dest) (v : Level) : Running :=
  match dst with
  | .level => { q with sample := v }
  | .bit i => { q with shift := setBit q.shift i v }

/-- The same in the state: the sequencing state exists only inside a command (R28). -/
def State.store (s : State) (dst : Dest) (v : Level) : State :=
  { s with seq := s.seq.map (fun q => q.store dst v) }

/-- One micro-step further in the command's list (R28). -/
def State.bumpPos (s : State) : State :=
  { s with seq := s.seq.map (fun q => { q with pos := q.pos + 1 }) }

/-! ### The micro-steps -/

/-- `rel(l)`: `dir[l] <- REL; Record(Rel(l))` (R100). -/
def release (l : Line) (s : State) : State := (s.setDir l .rel).record (.rel l)

/-- `low(l)`: `dir[l] <- LOW; Record(Low(l))` (R101). -/
def driveLow (l : Line) (s : State) : State := (s.setDir l .low).record (.low l)

/-- `rd()`: `dir[D] <- REL; v <- Sample(); Record(Rd(v)); return v` (R102). -/
def readData (dst : Dest) (s : State) : State :=
  let s1 := s.setDir .d .rel
  let v := s1.sampleLevel
  (s1.dropAnswer.record (.rd v)).store dst v

/-- `wait()`: `Delay(); Record(Wait)`, no line changes (R103). -/
def delay (s : State) : State := s.record .wait

/-- The effect of one micro-step of a command's list. -/
def doMicro (m : Micro) (s : State) : State :=
  match m with
  | .rel l => release l s
  | .low l => driveLow l s
  | .rd dst => readData dst s
  | .wait => delay s

/-- The further `wait()` steps an implementation adds after a micro-step (R121). -/
def extraDelays (slack : Slack) (s : State) : State :=
  { s with trace := s.trace ++ List.replicate (slack s.earlier s.trace) .wait }

/-- One micro-step, complete before the next starts (R60, R105), with the delays added after it. -/
def microStep (slack : Slack) (m : Micro) (s : State) : State :=
  (extraDelays slack (doMicro m s)).bumpPos

/-- Micro-steps in the order a command lists them (R60). -/
def runMicros (slack : Slack) : List Micro → State → State
  | [], s => s
  | m :: ms, s => runMicros slack ms (microStep slack m s)

/-! ### A command from acceptance to completion -/

/-- Acceptance (R35, R172): `Issue(word)` is recorded, the sequencing state comes into being (which
raises `busy`), and the pulse of an earlier response is over. -/
def accept (i : Instr) (s : State) : State :=
  { s with
    trace := s.trace ++ [.issue (encode i)]
    seq := some { instr := i, pos := 0, shift := 0x00, sample := false }
    rsp := none }

/-- A response is given (R87): put on `rsp` with its pulse (R88, R172), listed (R35), and the issue
index advances (R33). -/
def respond (op : BitVec 4) (r : Response) (s : State) : State :=
  { s with responses := s.responses ++ [r], rsp := some (rspWord op r), index := s.index + 1 }

/-- Completion (R172): the response is given and `busy` falls. A block that is not busy has nothing
to complete. -/
def complete (s : State) : State :=
  match s.seq with
  | some q => { respond (opOf q.instr) (responseOf q) s with seq := none }
  | none => s

/-- No further delay. -/
def noDelays : Slack := fun _ _ => 0

/-- Where an implementation may add delays: in the engine commands (R121). "The line commands never
wait" (R109). -/
def delaysOf (slack : Slack) : Instr → Slack
  | .rel _ => noDelays
  | .low _ => noDelays
  | .rd _ => noDelays
  | .start => slack
  | .stop => slack
  | .wrb _ => slack
  | .rdb _ => slack

/-- A whole command, atomic to the host (R58): acceptance, its micro-steps in order, completion. -/
def runCommand (slack : Slack) (i : Instr) (micros : List Micro) (s : State) : State :=
  complete (runMicros (delaysOf slack i) micros (accept i s))

/-! ### Taking the exception -/

/-- `IllegalCommand` on the word `w` (R162): `Record(Issue(w))`, the fault mark, the response
`illegal(0x01, w)`. No micro-step runs. -/
def raiseIllegal (w : Word) (s : State) : State :=
  respond (opField w) (.illegal .illegalCommand w)
    { s with trace := s.trace ++ [.issue w], fault := some ⟨.illegalCommand, w⟩ }

/-! ### Reset, idling, the port -/

/-- Reset (R180): the running command is abandoned with no response, both lines are released,
`busy` falls, the fault mark and the trace are empty. The host's inputs and Env are not the block's,
and Env keeps what it has seen (R181; log entries 1, 5, 6). -/
def resetBlock (s : State) : State :=
  { State.reset with
    inputs := s.inputs, answers := s.answers, earlier := s.trace :: s.earlier }

/-- A step in which no word is offered to a block that is not busy: the pulse of `rsp_valid`, one
clock wide (R32), is over, and nothing else changes. -/
def idle (s : State) : State := { s with rsp := none }

/-- The `busy` port: 1 from the acceptance of a command to its completion (R32). -/
def State.busy (s : State) : Bool := s.seq.isSome

/-- The `rsp_valid` port (R32). -/
def State.rspValid (s : State) : Bool := s.rsp.isSome

/-- A host's read of the `rsp` port: the response in its pulse, refused at every other time (R32,
R37, I14). -/
def readRsp (s : State) : Host.Outcome Word Fault Refusal :=
  match s.rsp with
  | some w => .next w
  | none => .refused .rspOutsidePulse

end Sys2Proof.Machine
end

