-- ==== Sys2Proof/Machine/LineController.lean ====
section
/-! DEFINITION. The line commands `REL`, `LOW` and `RD` (spec/40_line_controller.md R106 to R109). -/

namespace Sys2Proof.Machine

/-- `REL l`: `rel(l)` (R106). -/
def relProgram (l : Line) : List Micro := [.rel l]

/-- `LOW l`: `low(l)` (R107). -/
def lowProgram (l : Line) : List Micro := [.low l]

/-- `RD SDA`: `v <- rd()` (R108). -/
def rdProgram : List Micro := [.rd .level]

/-- `REL l` (R106). -/
def execRel (l : Line) (s : State) : Host.Outcome State Fault Refusal :=
  .next (runCommand Config.extraWaits (.rel l) (relProgram l) s)

/-- `LOW l` (R107). -/
def execLow (l : Line) (s : State) : Host.Outcome State Fault Refusal :=
  .next (runCommand Config.extraWaits (.low l) (lowProgram l) s)

/-- `RD SDA` (R108). `RD SCL` is no command: its word 0x3000 raises `IllegalCommand` (R76(f), C5). -/
def execRd (l : Line) (s : State) : Host.Outcome State Fault Refusal :=
  match l with
  | .d => .next (runCommand Config.extraWaits (.rd .d) rdProgram s)
  | .c => .next (raiseIllegal (encode (.rd .c)) s)

end Sys2Proof.Machine
end

