-- ==== Sys2Proof/Machine/ProtocolEngine.lean ====
section
/-! DEFINITION. The engine commands `START`, `STOP`, `WRB` and `RDB` as their micro-step lists
(spec/41_protocol_engine.md R120 to R131). None looks at the lines or the bus phase first (R120). -/

namespace Sys2Proof.Machine

/-- `START`: `rD rC w lD w lC w` (R122). -/
def startProgram : List Micro :=
  [.rel .d, .rel .c, .wait, .low .d, .wait, .low .c, .wait]

/-- `STOP`: `lD rC w rD w` (R123). -/
def stopProgram : List Micro :=
  [.low .d, .rel .c, .wait, .rel .d, .wait]

/-- One data bit of `WRB`: `SetD(b[i]); wait(); rel(C); wait(); low(C); wait()` (R127). -/
def wrbBit (b : Byte) (i : Fin 8) : List Micro :=
  [setD (b.getLsbD i.val), .wait, .rel .c, .wait, .low .c, .wait]

/-- The ninth bit of `WRB`, the ACK sample, and the return to the rest state (R127). -/
def wrbAck : List Micro :=
  [.rel .d, .rel .c, .wait, .rd .level, .low .c, .wait, .low .d]

/-- `WRB b` (R127): eight data bits, `b[7]` first (R126), then the ninth. -/
def wrbProgram (b : Byte) : List Micro := bitIndices.flatMap (wrbBit b) ++ wrbAck

/-- One data bit of `RDB`: `rel(C); wait(); s <- rd(); v[i] <- s; low(C); wait()` (R130). -/
def rdbBit (i : Fin 8) : List Micro :=
  [.rel .c, .wait, .rd (.bit i), .low .c, .wait]

/-- The ninth bit of `RDB`, ACK or NACK, and the return to the rest state (R130). -/
def rdbAck (sendAck : Bool) : List Micro :=
  [ackMicro sendAck, .rel .c, .wait, .low .c, .wait, .low .d]

/-- `RDB k` (R130): release D, eight samples, `v[7]` first, then the ninth bit. -/
def rdbProgram (sendAck : Bool) : List Micro :=
  .rel .d :: (bitIndices.flatMap rdbBit ++ rdbAck sendAck)

/-- `START` (R122). -/
def execStart (s : State) : Host.Outcome State Fault Refusal :=
  .next (runCommand Config.extraWaits .start startProgram s)

/-- `STOP` (R123). -/
def execStop (s : State) : Host.Outcome State Fault Refusal :=
  .next (runCommand Config.extraWaits .stop stopProgram s)

/-- `WRB b` (R127, R128). -/
def execWrb (b : Byte) (s : State) : Host.Outcome State Fault Refusal :=
  .next (runCommand Config.extraWaits (.wrb b) (wrbProgram b) s)

/-- `RDB k` (R130, R131). -/
def execRdb (sendAck : Bool) (s : State) : Host.Outcome State Fault Refusal :=
  .next (runCommand Config.extraWaits (.rdb sendAck) (rdbProgram sendAck) s)

end Sys2Proof.Machine
end

