-- ==== Sys2Proof/Machine/Dispatch.lean ====
section
/-! DEFINITION. The dispatch of a command to its meaning (spec/30_encoding.md R74). -/

namespace Sys2Proof.Machine

def exec (i : Instr) (s : State) : Host.Outcome State Fault Refusal :=
  match i with
  | .rel l => Sys2Proof.Machine.execRel l s
  | .low l => Sys2Proof.Machine.execLow l s
  | .rd l => Sys2Proof.Machine.execRd l s
  | .start => Sys2Proof.Machine.execStart s
  | .stop => Sys2Proof.Machine.execStop s
  | .wrb b => Sys2Proof.Machine.execWrb b s
  | .rdb k => Sys2Proof.Machine.execRdb k s

end Sys2Proof.Machine
end

