-- ==== Sys2Proof/Machine/Sequencer.lean ====
section
/-! DEFINITION. The sequencer: a running command one micro-step at a time, what a step meets at the
command port and the `rst` pin, and how a word is put there (spec/10_state.md R28, R32, R33;
spec/60_exceptions.md R172; spec/70_reset_and_hazards.md R180, R194). -/

namespace Sys2Proof.Machine

/-- The micro-step list of each command (R106 to R108, R122, R123, R127, R130). The ill-formed `RD` of
the clock line has none (R76(f)). -/
def program : Instr → List Micro
  | .rel l => relProgram l
  | .low l => lowProgram l
  | .rd .d => rdProgram
  | .rd .c => []
  | .start => startProgram
  | .stop => stopProgram
  | .wrb b => wrbProgram b
  | .rdb k => rdbProgram k

/-- The bit index of a byte transfer (R28): in `WRB` the bit a group of six micro-steps sends, in
`RDB` the bit a group of five, after the first `rD`, receives. -/
def Running.bitIndex (q : Running) : Option Nat :=
  match q.instr with
  | .wrb _ => if q.pos < 48 then some (7 - q.pos / 6) else none
  | .rdb _ => if 1 ≤ q.pos ∧ q.pos < 41 then some (7 - (q.pos - 1) / 5) else none
  | .rel _ => none
  | .low _ => none
  | .rd _ => none
  | .start => none
  | .stop => none

/-- Is the running command's micro-step list at its end? -/
def State.atEnd (s : State) : Bool :=
  match s.seq with
  | some q => (program q.instr).length ≤ q.pos
  | none => false

/-- Complete the running command if its list is at its end (R172). -/
def completeAtEnd (s : State) : State := if s.atEnd then complete s else s

/-- One micro-step of the running command, with its completion after the last one (R58, R172). A
block that is not busy does nothing. -/
def advance (slack : Slack) (s : State) : State :=
  match s.seq with
  | some q =>
    match (program q.instr)[q.pos]? with
    | some m => completeAtEnd (microStep (delaysOf slack q.instr) m s)
    | none => complete s
  | none => s

/-- `k` micro-steps of the running command. -/
def advanceMany (slack : Slack) : Nat → State → State
  | 0, s => s
  | k + 1, s => advanceMany slack k (advance slack s)

/-- The acceptance of a command and its first `k` micro-steps. -/
def beginCommand (slack : Slack) (i : Instr) (k : Nat) (s : State) : State :=
  advanceMany slack k (accept i s)

/-- What a step meets at the command port and the `rst` pin. -/
inductive Fetched where
  /-- `rst` is raised; the state without that entry. -/
  | reset (t : State)
  /-- The block is busy: no word is accepted, one stays offered (R172). -/
  | busy
  /-- No word is offered to a block that is not busy. -/
  | nothing
  /-- A legal word is accepted and run to its completion. -/
  | command (i : Instr) (t : State)
  /-- A legal word is accepted and run for `k` micro-steps. -/
  | partway (i : Instr) (k : Nat) (t : State)
  /-- An illegal word is accepted. -/
  | illegal (w : Word) (t : State)
  deriving DecidableEq, Repr

/-- The state once the first entry of `inputs` is used up. -/
def State.dropInput (s : State) : State := { s with inputs := s.inputs.tail }

/-- What the next step meets. `rst` acts at any time (R180); a word is accepted when `busy = 0` (R172)
and decoded once (R62, R77). -/
def fetch (s : State) : Fetched :=
  match s.inputs with
  | .reset :: _ => .reset s.dropInput
  | [] => if s.busy then .busy else .nothing
  | .command w :: _ =>
    if s.busy then .busy
    else match decode w with
      | .ok i => .command i s.dropInput
      | .illegal _ => .illegal w s.dropInput
  | .partway w k :: _ =>
    if s.busy then .busy
    else match decode w with
      | .ok i => .partway i k s.dropInput
      | .illegal _ => .illegal w s.dropInput

/-- The host's next act is to offer `w`, to a block that is not busy: what stands for loading an
instruction on a block that fetches none (R33, R62; log entries 4, 14). -/
def offerNext (w : Word) (s : State) : State :=
  { s with seq := none, inputs := .command w :: s.inputs }

/-! ### The input ports (R32) -/

/-- `cmd_valid`: the host offers a word. -/
def State.cmdValid (s : State) : Bool :=
  match s.inputs with
  | .command _ :: _ => true
  | .partway _ _ :: _ => true
  | .reset :: _ => false
  | [] => false

/-- `cmd`: the word offered, while `cmd_valid` is 1. -/
def State.cmd (s : State) : Option Word :=
  match s.inputs with
  | .command w :: _ => some w
  | .partway w _ :: _ => some w
  | .reset :: _ => none
  | [] => none

/-- `rst`. -/
def State.rst (s : State) : Bool :=
  match s.inputs with
  | .reset :: _ => true
  | .command _ :: _ => false
  | .partway _ _ :: _ => false
  | [] => false

end Sys2Proof.Machine
end

