-- ==== Sys2Proof/Machine/Step.lean ====
section
/-! DEFINITION. One step of the machine: what the port and the pin bring decides it
(spec/60_exceptions.md R162, R172; spec/70_reset_and_hazards.md R180). -/

namespace Sys2Proof.Machine

/-- One step. A word accepted from the command port runs to its completion, atomic to the host (R58);
an illegal word takes `IllegalCommand` (R162); a busy block does one micro-step; `rst` resets. -/
def step (s : State) : Host.Outcome State Fault Refusal :=
  match fetch s with
  | .reset t => .next (resetBlock t)
  | .busy => .next (advance Config.extraWaits s)
  | .nothing => .next (idle s)
  | .command i t => exec i t
  | .partway i k t => .next (beginCommand Config.extraWaits i k t)
  | .illegal w t => .next (raiseIllegal w t)

/-- `s` with the command word of `nbits` bits of `w` (bits above are zero) as the host's next offer. -/
def State.withFetchWord (s : State) (nbits w : Nat) : State :=
  offerNext (BitVec.ofNat 16 (w % 2 ^ nbits)) s

end Sys2Proof.Machine
end

