-- ==== Sys2Proof/Machine/Assembler.lean ====
section
/-! DEFINITION. The assembler syntax of BBM-16 (spec/30_encoding.md R79): one command a line, mnemonics
in either case, `;` starting a comment. What R79 leaves open is in log entry 20. -/

namespace Sys2Proof.Machine

/-- What a source line assembles to. -/
inductive Assembled where
  /-- A command. -/
  | command (i : Instr)
  /-- A blank or comment line. -/
  | blank
  /-- An assembly error, not a word. -/
  | error
  deriving DecidableEq, Repr

/-- The line without its comment. -/
def stripComment : List Char → List Char
  | [] => []
  | ch :: rest => if ch = ';' then [] else ch :: stripComment rest

/-- Is the character a blank? -/
def isBlank (ch : Char) : Bool := ch = ' ' || ch = '\t'

/-- The words of a line, `cur` being the one read so far, backwards. -/
def wordsFrom (cur : List Char) : List Char → List (List Char)
  | [] => if cur = [] then [] else [cur.reverse]
  | ch :: rest =>
    if isBlank ch then
      (if cur = [] then wordsFrom [] rest else cur.reverse :: wordsFrom [] rest)
    else wordsFrom (ch :: cur) rest

/-- The value of a digit. -/
def digitValue (ch : Char) : Option Nat :=
  if '0' ≤ ch ∧ ch ≤ '9' then some (ch.toNat - '0'.toNat)
  else if 'a' ≤ ch ∧ ch ≤ 'f' then some (ch.toNat - 'a'.toNat + 10)
  else if 'A' ≤ ch ∧ ch ≤ 'F' then some (ch.toNat - 'A'.toNat + 10)
  else none

/-- The value of a run of digits in a base, from the value so far. -/
def digitsFrom (base acc : Nat) : List Char → Option Nat
  | [] => some acc
  | ch :: rest =>
    match digitValue ch with
    | some v => if v < base then digitsFrom base (acc * base + v) rest else none
    | none => none

/-- At least one digit. -/
def numeralIn (base : Nat) (cs : List Char) : Option Nat :=
  match cs with
  | [] => none
  | _ :: _ => digitsFrom base 0 cs

/-- A numeral: decimal, `0x` hexadecimal or `0b` binary. -/
def numeral : List Char → Option Nat
  | '0' :: 'x' :: rest => numeralIn 16 rest
  | '0' :: 'b' :: rest => numeralIn 2 rest
  | cs => numeralIn 10 cs

/-- `imm8`: a numeral in `0..255`. -/
def imm8 (cs : List Char) : Option Byte :=
  match numeral cs with
  | some n => if n ≤ 255 then some (BitVec.ofNat 8 n) else none
  | none => none

/-- A line name. -/
def lineName (cs : List Char) : Option Line :=
  if cs = ['S', 'C', 'L'] then some .c
  else if cs = ['S', 'D', 'A'] then some .d
  else none

/-- An ACK name. -/
def ackName (cs : List Char) : Option Bool :=
  if cs = ['A', 'C', 'K'] then some true
  else if cs = ['N', 'A', 'C', 'K'] then some false
  else none

/-- A command, or an error where an operand is none. -/
def Assembled.ofOption : Option Instr → Assembled
  | some i => .command i
  | none => .error

/-- A command with its operand, the mnemonic in capitals. `RD SCL` is an error (R79). -/
def assembleOperand (mnem operand : List Char) : Assembled :=
  if mnem = ['R', 'E', 'L'] then .ofOption ((lineName operand).map .rel)
  else if mnem = ['L', 'O', 'W'] then .ofOption ((lineName operand).map .low)
  else if mnem = ['R', 'D'] then
    (if lineName operand = some .d then .command (.rd .d) else .error)
  else if mnem = ['W', 'R', 'B'] then .ofOption ((imm8 operand).map .wrb)
  else if mnem = ['R', 'D', 'B'] then .ofOption ((ackName operand).map .rdb)
  else .error

/-- A command without operands. -/
def assembleBare (mnem : List Char) : Assembled :=
  if mnem = ['S', 'T', 'A', 'R', 'T'] then .command .start
  else if mnem = ['S', 'T', 'O', 'P'] then .command .stop
  else .error

/-- A source line (R79). -/
def assembleLine (line : List Char) : Assembled :=
  match wordsFrom [] (stripComment line) with
  | [] => .blank
  | [m] => assembleBare (m.map Char.toUpper)
  | [m, x] => assembleOperand (m.map Char.toUpper) x
  | _ :: _ :: _ :: _ => .error

end Sys2Proof.Machine
end

