-- ==== Sys2Proof/Machine/Timing.lean ====
section
/-! DEFINITION. Counts of micro-steps and mandatory delays, and the least durations they imply
(spec/70_reset_and_hazards.md R195, R196, informative). No step reads any of these. -/

namespace Sys2Proof.Machine

/-- The number of micro-steps of a command (R195). -/
def microCount (i : Instr) : Nat := (program i).length

/-- The number of mandatory `wait()` steps of a command (R195). -/
def waitCount (i : Instr) : Nat := (program i).count .wait

/-- The least duration of a command in microseconds, ignoring `T_SU` and further delays (R195). -/
def minDuration (i : Instr) : Nat := waitCount i * Config.tDelay

/-- The least spacing in nanoseconds of a command's micro-steps, each at least `T_SU` after the one
before (R105). -/
def minSpacing (i : Instr) : Nat := (microCount i - 1) * Config.tSu

/-- The delays in each phase a micro-step list spends between a step `opens` and the next step `closes`,
in order; a phase still open at the end is left out (R196). -/
def phaseDelays (opens closes : Micro) : Option Nat → List Micro → List Nat
  | _, [] => []
  | none, m :: ms => phaseDelays opens closes (if m = opens then some 0 else none) ms
  | some n, m :: ms =>
    if m = closes then n :: phaseDelays opens closes (if m = opens then some 0 else none) ms
    else phaseDelays opens closes (some (if m = .wait then n + 1 else n)) ms

/-- The delays in each clock-high phase of a command: from `rC` to `lC` (R196). -/
def clockHighDelays (i : Instr) : List Nat := phaseDelays (.rel .c) (.low .c) none (program i)

/-- The delays in each clock-low phase inside a command: from `lC` to `rC` (R196). -/
def clockLowDelays (i : Instr) : List Nat := phaseDelays (.low .c) (.rel .c) none (program i)

end Sys2Proof.Machine
end

