-- ==== Sys2Proof/Machine/Wire.lean ====
section
/-! DEFINITION. The wires, the pads, the bus conditions and the bus phase, all computed and none stored
(spec/10_state.md R23 to R26, R30, R31; spec/00_scope.md R11). What Env pulls is an argument: it is
no state of the block (R37). -/

namespace Sys2Proof.Machine

/-! ### Pads and wires -/

/-- The output value of each line driver, fixed at 0 (R23, R193). -/
def padOutput : Level := false

/-- The pad pull-up, disabled permanently (R24). -/
def padPullup : Bool := false

/-- What the block drives on a line: its fixed output value while the driver is enabled, nothing
while the line is released (R22, R23). -/
def padDrive (x : Dir) : Option Level :=
  match x with
  | .low => some padOutput
  | .rel => none

/-- The level of a wire (R25): 0 if the block drives it or an agent of Env pulls it, else 1 with
pull-ups, else a level no source gives. -/
def wire (pullups : Bool) (floating : Level) (x : Dir) (pulled : Bool) : Level :=
  match padDrive x with
  | some v => v
  | none => if pulled then false else if pullups then true else floating

/-- The level of line `l`'s wire in a state, given whether Env pulls it (R25). -/
def State.wireLevel (s : State) (l : Line) (pulled : Bool) : Level :=
  wire Config.pullups (Config.floatingLevel l s.earlier s.trace) (s.dirs.get l) pulled

/-- `scl_oe`: 1 when `dir[C] = LOW` (R32). -/
def State.sclOe (s : State) : Bool := s.dirs.c == .low

/-- `sda_oe`: 1 when `dir[D] = LOW` (R32). -/
def State.sdaOe (s : State) : Bool := s.dirs.d == .low

/-- The GPIO identifier each line is on (R5, R32). -/
def pinOf : Line → Nat
  | .c => Config.pinScl
  | .d => Config.pinSda

/-- Bus idle: both wires high, both lines released and no other agent pulling low (R11). -/
def busIdle (x : Dirs) (pullsC pullsD : Bool) : Bool :=
  x == ⟨.rel, .rel⟩ && !pullsC && !pullsD

/-- The rest state `[L L]` (R11, C6). -/
def restState : Dirs := ⟨.low, .low⟩

/-! ### Bus conditions (R30) -/

/-- A bus condition. -/
inductive Condition where
  | start
  | stop
  deriving DecidableEq, Repr

/-- The master-created condition of a change of directions: `dir[D]` changes while `dir[C]` is, and
stays, released; falling is START, rising is STOP (R30). -/
def conditionOf (x y : Dirs) : Option Condition :=
  if x.c = .rel ∧ y.c = .rel then
    match x.d, y.d with
    | .rel, .low => some .start
    | .low, .rel => some .stop
    | .rel, .rel => none
    | .low, .low => none
  else none

/-- The same on the wires: it appears only if no agent of Env pulls C or D low at that instant (R30,
R190). DESIGN CHOICE: where none pulls it does appear, without pull-ups too, which R30 and R25 leave
open (log entry 31). -/
def wireCondition (pullsC pullsD : Bool) (x y : Dirs) : Option Condition :=
  if pullsC || pullsD then none else conditionOf x y

/-- What an event of the trace says of the directions (R100 to R103). -/
def Event.effect (e : Event) (x : Dirs) : Dirs :=
  match e with
  | .issue _ => x
  | .rel l => x.set l .rel
  | .low l => x.set l .low
  | .rd _ => x.set .d .rel
  | .wait => x

/-- The directions a trace leads to. -/
def replay (x : Dirs) (tr : Trace) : Dirs := tr.foldl (fun y e => e.effect y) x

/-- A trace with the condition each event creates: the annotations of R10. -/
def annotate (x : Dirs) : Trace → List (Event × Option Condition)
  | [] => []
  | e :: es => (e, conditionOf x (e.effect x)) :: annotate (e.effect x) es

/-- The master-created conditions of a trace, in order. -/
def conditions (x : Dirs) (tr : Trace) : List Condition := (annotate x tr).filterMap Prod.snd

/-- The conditions of a trace on the wires, given what Env pulls (C, D) as each event happens; Env pulls
nothing where the list is at its end (R30). -/
def wireConditions (x : Dirs) : List (Bool × Bool) → Trace → List Condition
  | _, [] => []
  | [], e :: es => conditions x (e :: es)
  | p :: ps, e :: es =>
    (wireCondition p.1 p.2 x (e.effect x)).toList ++ wireConditions (e.effect x) ps es

/-! ### Bus phase (R31) -/

/-- The bus phase. -/
inductive Phase where
  | idle
  | busy
  deriving DecidableEq, Repr

/-- `BUSY` from each START condition, `IDLE` from each STOP condition (R31). -/
def Condition.phase : Condition → Phase
  | .start => .busy
  | .stop => .idle

/-- The phase that conditions lead to, from a phase before them. -/
def phaseAfter (p : Phase) (cs : List Condition) : Phase := cs.foldl (fun _ c => c.phase) p

/-- The bus phase as reset leaves it, given what Env pulls then: "`IDLE` only if no `Env` agent holds a
line low" (R181, R37), since the lines are released; else the other of the two phases (log entry 30). -/
def phaseAtReset (pullsC pullsD : Bool) : Phase :=
  if busIdle ⟨.rel, .rel⟩ pullsC pullsD then .idle else .busy

/-- The bus phase, derived from what Env pulled at reset and the trace since (R31, R181), by the
master-created conditions (log entry 24). -/
def busPhase (pullsC pullsD : Bool) (tr : Trace) : Phase :=
  phaseAfter (phaseAtReset pullsC pullsD) (conditions ⟨.rel, .rel⟩ tr)

/-- The same for an observer who takes the conditions on the wires (R31), given what Env pulls as each
event happens. -/
def busPhaseOnWires (pullsC pullsD : Bool) (pulls : List (Bool × Bool)) (tr : Trace) : Phase :=
  phaseAfter (phaseAtReset pullsC pullsD) (wireConditions ⟨.rel, .rel⟩ pulls tr)

/-! ### What a slave sees of a byte (R85, R134) -/

/-- The direction of the data line held through each clock-high phase a trace begins: one entry for
each `rC` (R134). -/
def dataAtClockHigh (x : Dirs) : Trace → List Dir
  | [] => []
  | e :: es =>
    let rest := dataAtClockHigh (e.effect x) es
    if e = .rel .c then x.d :: rest else rest

/-- The level of a wire nobody else pulls, with pull-ups (R25): what a direction of the data line
shows a slave. -/
def levelOfDir (x : Dir) : Level := wire true true x false

end Sys2Proof.Machine
end

