-- ==== Sys2Proof/Machine/Observe.lean ====
section
/-! DEFINITION. The words the statements use: the events of the byte frames, responses and marks, and the
invariants of the machine (spec/10_state.md R22, R28, R33 to R35; spec/41_protocol_engine.md R121,
R127, R130; spec/60_exceptions.md R162, R163). No step reads any of them. -/

namespace Sys2Proof.Machine

/-- The event of `SetD(x)` (R125). -/
def setDEvent (x : Level) : Event := if x then .rel .d else .low .d

/-- The mandatory events of one data bit of `WRB` (R127). -/
def wrbBitEvents (x : Level) : Trace :=
  [setDEvent x, .wait, .rel .c, .wait, .low .c, .wait]

/-- The mandatory events of one data bit of `RDB` whose sample is `v` (R130). -/
def rdbBitEvents (v : Level) : Trace := [.rel .c, .wait, .rd v, .low .c, .wait]

/-- `evs` is the mandatory trace `must` with further `wait()` steps among its events, and nothing else
(R121). -/
def WithExtraDelays (must evs : Trace) : Prop :=
  List.Sublist must evs ∧ lineTrace evs = lineTrace must

/-- The events of a trace that create a condition, each with its condition (R10, R30). -/
def conditionEvents (x : Dirs) (tr : Trace) : List (Event × Condition) :=
  (annotate x tr).filterMap (fun p => p.2.map (fun c => (p.1, c)))

/-- The fault mark an illegal response leaves (R162). -/
def markOf : Response → Option FaultMark
  | .illegal c w => some ⟨c, w⟩
  | .none => none
  | .level _ => none
  | .ack _ => none
  | .byte _ => none

/-- The kind of response R87 gives a command. -/
def responseFits : Instr → Response → Bool
  | .rel _, .none => true
  | .low _, .none => true
  | .start, .none => true
  | .stop, .none => true
  | .rd _, .level _ => true
  | .wrb _, .ack _ => true
  | .rdb _, .byte _ => true
  | _, _ => false

/-- The sequencing state one micro-step further, where a sample took the level `v`: the position moves on
and the sample is stored where its micro-step says (R28, R108, R127, R130). -/
def Running.after (q : Running) (m : Micro) (v : Level) : Running :=
  match m with
  | .rd dst => { q.store dst v with pos := q.pos + 1 }
  | .rel _ => { q with pos := q.pos + 1 }
  | .low _ => { q with pos := q.pos + 1 }
  | .wait => { q with pos := q.pos + 1 }

/-- The samples each command takes (R57). -/
def sampleCount : Instr → Nat
  | .rd _ => 1
  | .wrb _ => 1
  | .rdb _ => 8
  | .rel _ => 0
  | .low _ => 0
  | .start => 0
  | .stop => 0

/-- An event without the level a sample took. -/
def Event.eraseLevel : Event → Event
  | .rd _ => .rd false
  | .issue w => .issue w
  | .rel l => .rel l
  | .low l => .low l
  | .wait => .wait

/-- Invariant: the trace since reset leads from the released lines to the directions (R22, R35, R104). -/
def State.TraceLeadsToDirs (s : State) : Prop :=
  replay ⟨.rel, .rel⟩ s.trace = s.dirs

/-- Invariant: each completed command has given one response and advanced the index by one, and each
accepted word stands in the trace once (R33, R35, R87). -/
def State.BooksBalance (s : State) : Prop :=
  s.responses.length = s.index ∧
  s.trace.countP (fun e => match e with | .issue _ => true | _ => false)
    = s.index + s.busy.toNat

/-- Invariant: a running command is a legal one with micro-steps left, and no response is on the port
while it runs (R28, R32, R76). -/
def State.SequencerSound (s : State) : Prop :=
  ∀ q, s.seq = some q →
    WellFormed q.instr ∧ q.pos < microCount q.instr ∧ s.rsp = none

/-- Invariant: the fault mark records the last illegal word since reset, if any, and that word is one
R76 makes illegal (R34, R162, R163, R167). -/
def State.MarkSound (s : State) : Prop :=
  s.fault = (s.responses.filterMap markOf).getLast? ∧
  ∀ m, s.fault = some m → illegalWord m.word = true

end Sys2Proof.Machine
end

