-- ==== Sys2Proof/Machine/Pseudo.lean ====
section
/-! DEFINITION. The driver's transaction sequences as host sequences of commands, the address byte, and
the host's combination of two bytes (spec/30_encoding.md R80 to R86; spec/20_memory.md R52, R54).
They are outside the block (spec/00_scope.md R4(a)): no step reads them. -/

namespace Sys2Proof.Machine

/-- The address byte `{SA[6:0], RW}` (R86): `rw` is true for read. -/
def addressByte (sa : BitVec 7) (rw : Bool) : Byte := 
  sa.zeroExtend 8 <<< 1 ||| (BitVec.ofBool rw).zeroExtend 8

/-- The slave address of RS's one slave (R52). -/
def slaveAddress : BitVec 7 := 0x68

/-- The pointer-write phase, which ends with a STOP (R81, C2). -/
def pointerPhase (sa : BitVec 7) (a : Byte) : List Instr :=
  [.start, .wrb (addressByte sa false), .wrb a, .stop]

/-- `WREG a, v` (R80). -/
def wreg (sa : BitVec 7) (a v : Byte) : List Instr :=
  [.start, .wrb (addressByte sa false), .wrb a, .wrb v, .stop]

/-- `RREG a` (R81). -/
def rreg (sa : BitVec 7) (a : Byte) : List Instr :=
  pointerPhase sa a ++ [.start, .wrb (addressByte sa true), .rdb false, .stop]

/-- `RBURST a, n` (R82): no expansion for `n = 0`. -/
def rburst (sa : BitVec 7) (a : Byte) : Nat → Option (List Instr)
  | 0 => none
  | n + 1 =>
    some (pointerPhase sa a ++ [.start, .wrb (addressByte sa true)]
      ++ List.replicate n (.rdb true) ++ [.rdb false, .stop])

/-- `WAKE` (R83). -/
def wake : List Instr := wreg slaveAddress 0x6B 0x00

/-- `IDENT` (R83). -/
def ident : List Instr := rreg slaveAddress 0x75

/-- `ACCEL` (R83). -/
def accel : Option (List Instr) := rburst slaveAddress 0x3B 6

/-- `GYRO` (R83). -/
def gyro : Option (List Instr) := rburst slaveAddress 0x43 6

/-- `TEMP` (R83). -/
def temp : Option (List Instr) := rburst slaveAddress 0x41 2

/-- The host's combination `sext_16({hi, lo})` read as two's complement (R54). -/
def combine (hi lo : Byte) : Int := 
  (hi.zeroExtend 16 <<< 8 ||| lo.zeroExtend 16).toInt

/-- The pairs the host combines: bytes 0-1, 2-3, and so on (R83). -/
def combinePairs : List Byte → List Int
  | hi :: lo :: rest => combine hi lo :: combinePairs rest
  | [_] => []
  | [] => []

end Sys2Proof.Machine
end

