-- ==== Sys2Proof/Safety.lean ====
section
/-! DEFINITION. What counts as a successful run, the final observation, and the framing duty of the host
(spec/10_state.md R34 to R36; spec/60_exceptions.md R174). -/

namespace Sys2Proof.Machine

/-- Is the input a command the host issues? A reset is none (R180). -/
def Input.isCommand : Input → Bool
  | .command _ => true
  | .partway _ _ => true
  | .reset => false

/-- A run has ended: the host has no further command to issue and the block is not busy (R36). A reset
still to come is no command. DESIGN CHOICE: a command after such a reset is a further one (log entry
29). -/
def State.runEnded (s : State) : Bool := s.inputs.all (fun x => !x.isCommand) && !s.busy

/-- "A run whose fault mark is set is never a successful run" (R34). -/
def State.unmarked (s : State) : Bool := s.fault.isNone

/-- The final observation (R36): the two directions, the line trace, the responses, the fault mark. -/
structure Observation where
  dirs : Dirs
  lineTrace : List Event
  responses : List Response
  fault : Option FaultMark
  deriving DecidableEq, Repr

/-- What the end of a run shows (R36). -/
def observe (s : State) : Observation :=
  { dirs := s.dirs, lineTrace := lineTrace s.trace, responses := s.responses, fault := s.fault }

/-- The verdict on a run at its end (R34, R36). -/
def verdict (s : State) : Host.Outcome Observation Fault Refusal :=
  if s.runEnded then
    match s.fault with
    | some m => .fault (.illegalCommand m.word)
    | none => .next (observe s)
  else .refused .runNotEnded

/-- Where a host stands in its framing of a transaction. -/
inductive Framing where
  /-- Outside a transaction. -/
  | outside
  /-- Inside one. -/
  | inside
  /-- Inside one, after `RDB ACK`: the slave expects another byte to be read. -/
  | afterAck
  deriving DecidableEq, Repr

/-- What R174 asks of a host's next command: every transaction runs from `START` to `STOP`, byte
commands stand inside one, and a read burst ends with `RDB NACK`. The line commands have no place in
that framing. The automaton is the model's own reading (log entry 25). -/
def Framing.next : Framing → Instr → Option Framing
  | .outside, .start => some .inside
  | .inside, .start => some .inside
  | .inside, .wrb _ => some .inside
  | .inside, .rdb true => some .afterAck
  | .inside, .rdb false => some .inside
  | .inside, .stop => some .outside
  | .afterAck, .rdb true => some .afterAck
  | .afterAck, .rdb false => some .inside
  | .outside, .stop => none
  | .outside, .wrb _ => none
  | .outside, .rdb _ => none
  | .afterAck, .start => none
  | .afterAck, .stop => none
  | .afterAck, .wrb _ => none
  | _, .rel _ => none
  | _, .low _ => none
  | _, .rd _ => none

/-- Does a host sequence keep the framing of R174 to its end? -/
def hostFramed (p : Framing) : List Instr → Bool
  | [] => p == .outside
  | i :: is =>
    match p.next i with
    | some q => hostFramed q is
    | none => false

end Sys2Proof.Machine
end

