-- ==== Sys2Proof/Certificates/Slice0/Obligations.lean ====
section
/-! DEFINITION. The statements for the provers, from the numbered rules of spec/. -/

open Sys2Proof Sys2Proof.Machine

/-! ### Encoding -/

/-- R77, R78: decoding the word of a well-formed command gives that command back, with every operand. -/
def Obligations.DecodeOfEncodeIsTheCommand : Prop :=
  ∀ i : Instr, WellFormed i → decode (encode i) = .ok i

/-- R77: "Every word decodes to exactly one command or to `Illegal`": a word that decodes to a command
is that command's word, so two words never share a meaning, and what decodes is well-formed. -/
def Obligations.EncodeOfDecodeIsTheWord : Prop :=
  ∀ (w : Word) (i : Instr), decode w = .ok i → encode i = w ∧ WellFormed i

/-- R79's words and their commands. -/
def Obligations.WordsOfTheAssemblerTableDecode : Prop :=
  decode 0x1000 = .ok (.rel .c) ∧ decode 0x1100 = .ok (.rel .d) ∧
  decode 0x2000 = .ok (.low .c) ∧ decode 0x2100 = .ok (.low .d) ∧
  decode 0x3100 = .ok (.rd .d) ∧ decode 0x4000 = .ok .start ∧ decode 0x5000 = .ok .stop ∧
  decode 0x60D0 = .ok (.wrb 0xD0) ∧ decode 0x60FF = .ok (.wrb 0xFF) ∧
  decode 0x7100 = .ok (.rdb true) ∧ decode 0x7000 = .ok (.rdb false)

/-- R74: "265 of the 65536 words are legal". -/
def Obligations.LegalWordsAreExactly265 : Prop :=
  (∀ w : Word, (∃ i, decode w = .ok i) ↔ w ∈ legalWords) ∧
  legalWords.Nodup ∧ legalWords.length = 265

/-- R74, R77: a word decodes to a command exactly when it selects the row of the opcode map that bears
the command's mnemonic, and no word selects two rows. -/
def Obligations.OpcodeRowsDecideDecoding : Prop :=
  (∀ (w : Word) (i : Instr), decode w = .ok i →
    ∃ r ∈ opcodeTable, r.selects w = true ∧ r.mnemonic = mnemonicOf i) ∧
  (∀ w : Word, (∃ r ∈ opcodeTable, r.selects w = true) → ∃ i, decode w = .ok i) ∧
  (∀ (w : Word) (r q : OpcodeRow), r ∈ opcodeTable → q ∈ opcodeTable →
    r.selects w = true → q.selects w = true → r = q)

/-- R76: a word is illegal when one of (a) to (f) holds, and only then; offered in either form to a block
that is not busy it raises `IllegalCommand` without any micro-step. -/
def Obligations.IllegalClassesRaiseIllegalCommand : Prop :=
  ∀ w : Word,
    (illegalWord w = true ↔ ∃ r, decode w = .illegal r) ∧
    (illegalWord w = true → ∀ s : State, s.cmd = some w → s.busy = false →
      ∃ t : State, step s = .next t ∧ t.dirs = s.dirs ∧ t.trace = s.trace ++ [Event.issue w] ∧
        t.fault = some ⟨.illegalCommand, w⟩ ∧
        t.responses = s.responses ++ [Response.illegal .illegalCommand w])

/-! ### The micro-steps -/

/-- R100: `rel(l)`. -/
def Obligations.ReleaseMicroStep : Prop :=
  ∀ (l : Line) (s : State),
    doMicro (.rel l) s = { s with dirs := s.dirs.set l .rel, trace := s.trace ++ [Event.rel l] } ∧
    (∀ (floating : Level) (pulled : Bool),
      wire true floating ((doMicro (.rel l) s).dirs.get l) pulled = !pulled) ∧
    conditionOf s.dirs (doMicro (.rel l) s).dirs
      = if l = .d ∧ s.dirs = ⟨.rel, .low⟩ then some .stop else none

/-- R101: `low(l)`. -/
def Obligations.DriveLowMicroStep : Prop :=
  ∀ (l : Line) (s : State),
    doMicro (.low l) s = { s with dirs := s.dirs.set l .low, trace := s.trace ++ [Event.low l] } ∧
    (∀ (pullups floating : Level) (pulled : Bool),
      wire pullups floating ((doMicro (.low l) s).dirs.get l) pulled = false) ∧
    conditionOf s.dirs (doMicro (.low l) s).dirs
      = (if l = .d ∧ s.dirs = ⟨.rel, .rel⟩ then some .start else none) ∧
    padDrive ((doMicro (.low l) s).dirs.get l) = some false

/-- R102, R27: `rd()` releases D, takes the level Env answers (the next constrained answer, else the
oracle's), and records one event, `Rd(v)`; no delay stands inside it. -/
def Obligations.ReadMicroStep : Prop :=
  ∀ (dst : Dest) (s : State), ∃ v : Level,
    (∀ a rest, s.answers = a :: rest → v = a) ∧
    (s.answers = [] → v = Config.envSample s.earlier s.trace) ∧
    doMicro (.rd dst) s
      = { s with
          dirs := s.dirs.set .d .rel
          trace := s.trace ++ [Event.rd v]
          answers := s.answers.tail
          seq := s.seq.map (fun q => q.store dst v) } ∧
    conditionOf s.dirs (doMicro (.rd dst) s).dirs
      = if s.dirs = ⟨.rel, .low⟩ then some .stop else none

/-- R103, R9: `wait()` changes no state but the trace. -/
def Obligations.WaitMicroStep : Prop :=
  ∀ s : State, doMicro .wait s = { s with trace := s.trace ++ [Event.wait] }

/-! ### The line commands -/

/-- R106: `REL l` from every state. -/
def Obligations.RelReleasesTheLine : Prop :=
  (∀ (l : Line) (s : State), ∃ t : State, exec (.rel l) s = .next t ∧
    t.dirs = s.dirs.set l .rel ∧
    t.trace = s.trace ++ [Event.issue (if l = .c then 0x1000 else 0x1100), .rel l] ∧
    t.responses = s.responses ++ [Response.none] ∧ t.fault = s.fault ∧
    conditions s.dirs [.rel l] = if l = .d ∧ s.dirs = ⟨.rel, .low⟩ then [Condition.stop] else []) ∧
  (∀ w : Word, opField w = 0x1 → w ≠ 0x1000 → w ≠ 0x1100 → ∃ r, decode w = .illegal r)

/-- R107: `LOW l` from every state. -/
def Obligations.LowDrivesTheLine : Prop :=
  (∀ (l : Line) (s : State), ∃ t : State, exec (.low l) s = .next t ∧
    t.dirs = s.dirs.set l .low ∧
    t.trace = s.trace ++ [Event.issue (if l = .c then 0x2000 else 0x2100), .low l] ∧
    t.responses = s.responses ++ [Response.none] ∧ t.fault = s.fault ∧
    conditions s.dirs [.low l] = if l = .d ∧ s.dirs = ⟨.rel, .rel⟩ then [Condition.start] else []) ∧
  (∀ w : Word, opField w = 0x2 → w ≠ 0x2000 → w ≠ 0x2100 → ∃ r, decode w = .illegal r)

/-- R108: `RD SDA` from every state: the level is Env's answer, and a release from LOW with the clock
released is a STOP condition. -/
def Obligations.RdSamplesTheDataLine : Prop :=
  (∀ s : State, ∃ (t : State) (v : Level), exec (.rd .d) s = .next t ∧
    t.dirs = s.dirs.set .d .rel ∧
    t.trace = s.trace ++ [Event.issue 0x3100, .rd v] ∧
    t.responses = s.responses ++ [Response.level v] ∧ t.fault = s.fault ∧
    t.answers = s.answers.tail ∧
    (∀ a rest, s.answers = a :: rest → v = a) ∧
    (s.answers = [] → v = Config.envSample s.earlier (s.trace ++ [Event.issue 0x3100])) ∧
    conditions s.dirs [.rd v] = if s.dirs = ⟨.rel, .low⟩ then [Condition.stop] else []) ∧
  (∀ w : Word, opField w = 0x3 → w ≠ 0x3100 → ∃ r, decode w = .illegal r)

/-- R76(f), C5: the term `RD SCL` is no command; its word 0x3000 raises `IllegalCommand` (log entry
13: the model gives the ill-formed term the effect of its word). -/
def Obligations.RdOfTheClockLineIsIllegal : Prop :=
  decode 0x3000 = .illegal .readClock ∧ encode (.rd .c) = 0x3000 ∧
  ∀ s : State, ∃ t : State, exec (.rd .c) s = .next t ∧ t.dirs = s.dirs ∧
    t.trace = s.trace ++ [Event.issue 0x3000] ∧ t.fault = some ⟨.illegalCommand, 0x3000⟩ ∧
    t.responses = s.responses ++ [Response.illegal .illegalCommand 0x3000] ∧ t.rsp = some 0x3201

/-! ### START and STOP -/

/-- R122: `START` from every state. -/
def Obligations.StartRunsItsSequence : Prop :=
  ∀ s : State, ∃ (t : State) (evs : Trace), exec .start s = .next t ∧
    t.trace = s.trace ++ Event.issue 0x4000 :: evs ∧
    WithExtraDelays [.rel .d, .rel .c, .wait, .low .d, .wait, .low .c, .wait] evs ∧
    t.dirs = ⟨.low, .low⟩ ∧ t.responses = s.responses ++ [Response.none] ∧ t.fault = s.fault ∧
    (s.dirs = ⟨.rel, .low⟩ → conditions s.dirs evs = [Condition.stop, Condition.start]) ∧
    (s.dirs ≠ ⟨.rel, .low⟩ → conditions s.dirs evs = [Condition.start]) ∧
    (∀ pullsC, wireCondition pullsC true ⟨.rel, .rel⟩ ⟨.rel, .low⟩ = none)

/-- R123: `STOP` from every state. -/
def Obligations.StopRunsItsSequence : Prop :=
  ∀ s : State, ∃ (t : State) (evs : Trace), exec .stop s = .next t ∧
    t.trace = s.trace ++ Event.issue 0x5000 :: evs ∧
    WithExtraDelays [.low .d, .rel .c, .wait, .rel .d, .wait] evs ∧
    t.dirs = ⟨.rel, .rel⟩ ∧ t.responses = s.responses ++ [Response.none] ∧ t.fault = s.fault ∧
    busIdle t.dirs false false = true ∧
    (s.dirs = ⟨.rel, .rel⟩ → conditions s.dirs evs = [Condition.start, Condition.stop]) ∧
    (s.dirs ≠ ⟨.rel, .rel⟩ → conditions s.dirs evs = [Condition.stop]) ∧
    (∀ pullsC, wireCondition pullsC true ⟨.rel, .low⟩ ⟨.rel, .rel⟩ = none)

/-- R124: the conditions `START` and `STOP` create, each with the event that creates it: by `START` one
START at its `lD`, and a STOP at its `rD` exactly from `[H L]`; by `STOP` one STOP at its `rD`, and a
START at its `lD` exactly from `[H H]`. -/
def Obligations.ConditionsOfStartAndStop : Prop :=
  ∀ s : State,
    (∃ (t : State) (evs : Trace), exec .start s = .next t ∧
        t.trace = s.trace ++ Event.issue 0x4000 :: evs ∧
      conditionEvents s.dirs evs
        = (if s.dirs = ⟨.rel, .low⟩ then [(Event.rel .d, Condition.stop)] else []) ++
          [(Event.low .d, Condition.start)]) ∧
    (∃ (t : State) (evs : Trace), exec .stop s = .next t ∧
        t.trace = s.trace ++ Event.issue 0x5000 :: evs ∧
      conditionEvents s.dirs evs
        = (if s.dirs = ⟨.rel, .rel⟩ then [(Event.low .d, Condition.start)] else []) ++
          [(Event.rel .d, Condition.stop)])

/-! ### WRB -/

/-- R127, R126, R125: `WRB b` from every state: eight bits, `b[7]` first, each set, then clocked, with a
1 sent by releasing the line; the ninth-bit sample is Env's answer. -/
def Obligations.WrbSendsTheByte : Prop :=
  ∀ (b : Byte) (s : State), ∃ (t : State) (evs : Trace) (v : Level), exec (.wrb b) s = .next t ∧
    t.trace = s.trace ++ Event.issue (0x6000 + b.zeroExtend 16) :: evs ∧
    WithExtraDelays
      ([b.getLsbD 7, b.getLsbD 6, b.getLsbD 5, b.getLsbD 4, b.getLsbD 3, b.getLsbD 2, b.getLsbD 1,
        b.getLsbD 0].flatMap wrbBitEvents
        ++ [Event.rel .d, .rel .c, .wait, .rd v, .low .c, .wait, .low .d]) evs ∧
    (∀ a rest, s.answers = a :: rest → v = a) ∧
    t.dirs = ⟨.low, .low⟩ ∧ t.responses = s.responses ++ [Response.ack (v == false)] ∧
    t.fault = s.fault

/-- R128: the ACK outcome: `ack(true)` iff the ninth-bit sample is 0, `ack(false)` iff it is 1, with the
same micro-steps, no exception and the same end either way. -/
def Obligations.AckIffNinthSampleIsZero : Prop :=
  ∀ (b : Byte) (s : State) (v : Level) (rest : List Level), s.answers = v :: rest →
    ∃ t : State, exec (.wrb b) s = .next t ∧
      t.responses = s.responses ++ [Response.ack (!v)] ∧ t.answers = rest ∧
      lineTrace t.trace
        = lineTrace s.trace ++ Event.issue (encode (.wrb b))
          :: ((bitsMsbFirst b).flatMap (fun x => [setDEvent x, Event.rel .c, .low .c])
            ++ [Event.rel .d, .rel .c, .rd v, .low .c, .low .d]) ∧
      t.dirs = ⟨.low, .low⟩ ∧ t.fault = s.fault ∧ t.busy = false

/-- R129(b), (c): the conditions `WRB` creates: none from `[L x]`; from `[H H]` a START exactly if
`b[7] = 0`, from `[H L]` a STOP exactly if `b[7] = 1`. -/
def Obligations.ConditionsOfWrb : Prop :=
  ∀ (b : Byte) (s t : State) (evs : Trace), exec (.wrb b) s = .next t → t.trace = s.trace ++ evs →
    (s.dirs.c = .low → conditions s.dirs evs = []) ∧
    (s.dirs = ⟨.rel, .rel⟩ →
      conditions s.dirs evs = if b.getLsbD 7 = false then [Condition.start] else []) ∧
    (s.dirs = ⟨.rel, .low⟩ →
      conditions s.dirs evs = if b.getLsbD 7 = true then [Condition.stop] else [])

/-- R134, R126: entered with the clock low, `WRB b` holds the data line, through its k-th clock-high phase,
released if `b[8-k]` is 1 and low if it is 0; and a `RDB` that Env answers with the levels so seen
returns the byte. -/
def Obligations.LoopBackReturnsTheByte : Prop :=
  ∀ (b : Byte) (k : Bool) (s t u : State) (evs : Trace) (rest : List Level),
    s.dirs.c = .low → exec (.wrb b) s = .next t → t.trace = s.trace ++ evs →
    ((dataAtClockHigh s.dirs evs).take 8
      = (bitsMsbFirst b).map (fun x => if x then Dir.rel else Dir.low)) ∧
    (u.answers = ((dataAtClockHigh s.dirs evs).take 8).map levelOfDir ++ rest →
      ∃ u' : State, exec (.rdb k) u = .next u' ∧ u'.responses = u.responses ++ [Response.byte b] ∧
        u'.answers = rest)

/-! ### RDB -/

/-- R130, R131: `RDB k` from every state: D released, eight samples each with the clock high, then the
ACK or NACK bit; the byte is the samples in time order, first sample bit 7. -/
def Obligations.RdbReceivesTheByte : Prop :=
  ∀ (k : Bool) (s : State), ∃ (t : State) (evs : Trace) (s1 s2 s3 s4 s5 s6 s7 s8 : Level),
      exec (.rdb k) s = .next t ∧
    t.trace = s.trace ++ Event.issue (if k then 0x7100 else 0x7000) :: evs ∧
    WithExtraDelays
      (Event.rel .d :: ([s1, s2, s3, s4, s5, s6, s7, s8].flatMap rdbBitEvents
        ++ [if k then Event.low .d else Event.rel .d, .rel .c, .wait, .low .c, .wait, .low .d])) evs ∧
    t.dirs = ⟨.low, .low⟩ ∧ t.fault = s.fault ∧
    (∀ as rest, as.length = 8 → s.answers = as ++ rest →
      as = [s1, s2, s3, s4, s5, s6, s7, s8] ∧ t.answers = rest) ∧
    ∃ v : Byte, t.responses = s.responses ++ [Response.byte v] ∧
      v.toNat = s1.toNat * 128 + s2.toNat * 64 + s3.toNat * 32 + s4.toNat * 16
        + s5.toNat * 8 + s6.toNat * 4 + s7.toNat * 2 + s8.toNat

/-- R131: with `s1 ... s8` the eight samples of one `RDB` in time order, Env's answers, the byte is
`s1*128 + s2*64 + ... + s8`, equivalently `v <- ((v << 1) | s) mod 256` once per sample from 0. -/
def Obligations.ByteIsTheSamplesShiftedIn : Prop :=
  ∀ (k : Bool) (s : State) (s1 s2 s3 s4 s5 s6 s7 s8 : Level) (rest : List Level),
    s.answers = [s1, s2, s3, s4, s5, s6, s7, s8] ++ rest →
    ∃ (t : State) (v : Byte), exec (.rdb k) s = .next t ∧
      t.responses = s.responses ++ [Response.byte v] ∧
      t.answers = rest ∧
      v.toNat = s1.toNat * 128 + s2.toNat * 64 + s3.toNat * 32 + s4.toNat * 16
        + s5.toNat * 8 + s6.toNat * 4 + s7.toNat * 2 + s8.toNat ∧
      v.toNat = [s1, s2, s3, s4, s5, s6, s7, s8].foldl
        (fun n x => ((n <<< 1) ||| x.toNat) % 256) 0 ∧
      v = assembleByte [s1, s2, s3, s4, s5, s6, s7, s8]

/-- R132(c), (d): the conditions `RDB` creates: none from `[L x]` and from `[H H]`; from `[H L]` the STOP
of its first `rD`. -/
def Obligations.ConditionsOfRdb : Prop :=
  ∀ (k : Bool) (s t : State) (evs : Trace), exec (.rdb k) s = .next t → t.trace = s.trace ++ evs →
    (s.dirs ≠ ⟨.rel, .low⟩ → conditions s.dirs evs = []) ∧
    (s.dirs = ⟨.rel, .low⟩ → conditions s.dirs evs = [Condition.stop])

/-- R192: with D held low throughout, `WRB` reports `ack(true)` and `RDB` returns 0x00; with nothing
pulling it, `ack(false)` and 0xFF (R129(e), (f), R132(a), (b)). -/
def Obligations.StuckLineLooksLikeAckAndZero : Prop :=
  ∀ (b : Byte) (k v : Bool) (s : State) (rest : List Level),
    s.answers = List.replicate 9 v ++ rest →
    ∃ t u : State, exec (.wrb b) s = .next t ∧ exec (.rdb k) t = .next u ∧
      u.responses = s.responses ++ [Response.ack (!v), Response.byte (if v then 0xFF else 0x00)] ∧
      u.fault = s.fault ∧ u.answers = rest

/-! ### Laws of all commands -/

/-- R133: the post-state law: `[L L]` after `START`, `WRB`, `RDB`, `[H H]` after `STOP`, from every
pre-state and for every answer of Env; a byte command entered from `[L x]` creates no condition. -/
def Obligations.PostStateLaw : Prop :=
  ∀ s : State,
    (∃ t : State, exec .start s = .next t ∧ t.dirs = restState) ∧
    (∃ t : State, exec .stop s = .next t ∧ t.dirs = ⟨.rel, .rel⟩) ∧
    (∀ b, ∃ (t : State) (evs : Trace), exec (.wrb b) s = .next t ∧ t.dirs = restState ∧
        t.trace = s.trace ++ evs ∧
      (s.dirs.c = .low → conditions s.dirs evs = [])) ∧
    (∀ k, ∃ (t : State) (evs : Trace), exec (.rdb k) s = .next t ∧ t.dirs = restState ∧
        t.trace = s.trace ++ evs ∧
      (s.dirs.c = .low → conditions s.dirs evs = []))

/-- R109: the line commands never wait, and their effect on the directions is the same from every
state, the other line unchanged. -/
def Obligations.FrameOfLineCommands : Prop :=
  ∀ (i : Instr) (l m : Line) (x : Dir) (s : State),
    ((i = .rel l ∧ x = .rel) ∨ (i = .low l ∧ x = .low) ∨ (i = .rd l ∧ l = .d ∧ x = .rel)) →
    ∃ (t : State) (e : Event), exec i s = .next t ∧ t.dirs.get l = x ∧
      (m ≠ l → t.dirs.get m = s.dirs.get m) ∧
      t.trace = s.trace ++ [Event.issue (encode i), e] ∧ e ≠ .wait ∧
      ((∃ v, e = .rd v) ↔ i = .rd .d) ∧
      t.fault = s.fault ∧ t.inputs = s.inputs ∧ t.earlier = s.earlier ∧ t.seq = none ∧
      t.answers = s.answers.drop (sampleCount i)

/-- R34, R50, R58, R104: the frame of every command: the fault mark, the host's inputs and Env's past
are unchanged, the trace and the responses only grow, and no sequencing state is left (R28). -/
def Obligations.FrameOfEveryCommand : Prop :=
  ∀ (i : Instr) (s : State), WellFormed i →
    ∃ (t : State) (evs : Trace) (r : Response), exec i s = .next t ∧ t.fault = s.fault ∧
      t.inputs = s.inputs ∧
      t.earlier = s.earlier ∧ t.seq = none ∧ t.trace = s.trace ++ Event.issue (encode i) :: evs ∧
      (∀ w, Event.issue w ∉ evs) ∧
      t.responses = s.responses ++ [r] ∧ t.index = s.index + 1

/-- R87: "Every completed command returns exactly one response", of the kind its row gives, and R88 lays
it out on the port. -/
def Obligations.EveryCommandGivesItsResponse : Prop :=
  ∀ (i : Instr) (s : State), WellFormed i →
    ∃ (t : State) (r : Response), exec i s = .next t ∧ t.responses = s.responses ++ [r] ∧
      responseFits i r = true ∧ t.rsp = some (rspWord (opOf i) r) ∧
      readRsp t = .next (rspWord (opOf i) r)

/-- R57: the samples each command takes of the data wire: `WRB` and `RD` one, `RDB` eight, the others
none; Env's other constrained answers stay as they are. -/
def Obligations.SamplesPerCommand : Prop :=
  ∀ (i : Instr) (s : State), WellFormed i →
    ∃ t : State, exec i s = .next t ∧ t.answers = s.answers.drop (sampleCount i)

/-- R88: the layout of the response port. -/
def Obligations.ResponseWordLayout : Prop :=
  ∀ (op : BitVec 4) (r : Response),
    (rspWord op r).extractLsb' 12 4 = op ∧ (rspWord op r).extractLsb' 10 2 = 0 ∧
    ((rspWord op r).getLsbD 9 = true ↔ ∃ c w, r = .illegal c w) ∧
    ((rspWord op r).getLsbD 8 = true ↔ r = .ack true ∨ r = .level true) ∧
    (rspWord op r).extractLsb' 0 8
      = (match r with
        | .byte v => v
        | .illegal _ _ => 0x01
        | .none => 0x00
        | .level _ => 0x00
        | .ack _ => 0x00)

/-- R121: "extra delays change no direction and no line trace": whatever delays an implementation adds,
a command that Env answers alike leaves the same directions, line trace and response. -/
def Obligations.ExtraDelaysChangeNothingElse : Prop :=
  ∀ (slack slack' : Slack) (i : Instr) (s : State), sampleCount i ≤ s.answers.length →
    let t := runCommand slack i (program i) s
    let t' := runCommand slack' i (program i) s
    t.dirs = t'.dirs ∧ lineTrace t.trace = lineTrace t'.trace ∧ t.responses = t'.responses ∧
      t.answers = t'.answers ∧ t.fault = t'.fault

/-- R160: "No bus event changes the micro-step list of a command": two states that differ in Env's answers
alone step to the same directions, fault mark, index and sequence of line events, but for the levels
sampled. -/
def Obligations.EnvAnswersChangeOnlySamples : Prop :=
  ∀ (s : State) (as : List Level), ∃ t u : State, step s = .next t ∧
    step { s with answers := as } = .next u ∧
    t.dirs = u.dirs ∧ t.fault = u.fault ∧ t.index = u.index ∧ t.inputs = u.inputs ∧
    t.busy = u.busy ∧
    (lineTrace t.trace).map Event.eraseLevel = (lineTrace u.trace).map Event.eraseLevel

/-! ### The step, the sequencer, the handshake -/

/-- A step at a block that is not busy, with a word offered that decodes to `i`, is `exec i` at that
state with the offer used up (R62, R172). -/
def Obligations.StepRunsTheDecodedCommand : Prop :=
  ∀ (s : State) (w : Word) (i : Instr) (rest : List Input),
    s.busy = false → s.inputs = .command w :: rest → decode w = .ok i →
    step s = exec i { s with inputs := rest }

/-- R58, R60: a command run to its completion in one step is its acceptance followed by its micro-steps,
one at a time and in order; the block is busy before the last of them and not after it, and gives no
response before. -/
def Obligations.CommandIsItsMicroSteps : Prop :=
  ∀ (i : Instr) (s : State), WellFormed i →
    exec i s = .next (beginCommand Config.extraWaits i (microCount i) s) ∧
    ∀ k, k < microCount i →
      (beginCommand Config.extraWaits i k s).busy = true ∧
      (beginCommand Config.extraWaits i k s).responses = s.responses ∧
      (beginCommand Config.extraWaits i k s).rspValid = false

/-- R172, R28: a word offered to a busy block is not accepted and stays offered, while the running
command does one micro-step (one a step: log entry 17): its lines, its event, its sample from Env's
answers, stored, and its position one further; after the last micro-step, and only then, the command
completes with its response. Further delays follow only in an engine command (log entry 3). -/
def Obligations.BusyBlockHoldsTheOffer : Prop :=
  ∀ (s : State) (q : Running) (m : Micro), s.seq = some q → s.rst = false →
    (program q.instr)[q.pos]? = some m →
    ∃ (t : State) (v : Level), step s = .next t ∧
      (∀ a rest, s.answers = a :: rest → v = a) ∧
      (s.answers = [] → v = Config.envSample s.earlier s.trace) ∧
      t.inputs = s.inputs ∧ t.fault = s.fault ∧ t.earlier = s.earlier ∧
      t.dirs = (doMicro m s).dirs ∧ t.answers = (doMicro m s).answers ∧
      (∃ n, t.trace = (doMicro m s).trace ++ List.replicate n Event.wait ∧
        ((∃ l, q.instr = .rel l ∨ q.instr = .low l ∨ q.instr = .rd l) → n = 0)) ∧
      (q.pos + 1 < microCount q.instr →
        t.seq = some (q.after m v) ∧ t.responses = s.responses ∧ t.index = s.index ∧
        t.rsp = s.rsp) ∧
      (q.pos + 1 = microCount q.instr →
        t.seq = none ∧ t.responses = s.responses ++ [responseOf (q.after m v)] ∧
        t.index = s.index + 1 ∧
        t.rsp = some (rspWord (opOf q.instr) (responseOf (q.after m v))))

/-- R32, R172: `rsp_valid` is 1 after a step exactly when a command completed in it, and then `rsp` is the
layout of the last response. -/
def Obligations.PulseExactlyAtCompletion : Prop :=
  ∀ s : State, s.SequencerSound → ∃ t : State, step s = .next t ∧
    (t.rspValid = true ↔ t.responses.length = s.responses.length + 1) ∧
    (t.rspValid = true → t.busy = false ∧
      ∃ r op, t.responses = s.responses ++ [r] ∧ t.rsp = some (rspWord op r))

/-- I14, D25: a host's read of `rsp` outside a pulse is refused; a reset block, and an idle step, leave
no pulse. -/
def Obligations.RspReadOutsideItsPulseIsRefused : Prop :=
  (∀ s : State, s.rspValid = false → readRsp s = .refused .rspOutsidePulse) ∧
  State.reset.rspValid = false ∧
  (∀ s : State, s.inputs = [] → s.busy = false → step s = .next { s with rsp := none })

/-- R160: every step answers a next state: no bus event, no order of commands and no answer of Env stops
the block. -/
def Obligations.NoStepFaultsOrRefuses : Prop :=
  ∀ s : State, ∃ t : State, step s = .next t

/-! ### IllegalCommand and the fault mark -/

/-- R162: the effect of an illegal word, however it is offered: `Issue(w)`, the fault mark, the response; no micro-step, no
delay, the block not busy after it; and a run so marked is never a successful run. -/
def Obligations.IllegalCommandEffect : Prop :=
  ∀ (s : State) (w : Word), s.busy = false → s.cmd = some w → illegalWord w = true →
    step s = .next
      { s with
        inputs := s.inputs.tail
        trace := s.trace ++ [Event.issue w]
        fault := some ⟨.illegalCommand, w⟩
        responses := s.responses ++ [Response.illegal .illegalCommand w]
        rsp := some (rspWord (opField w) (.illegal .illegalCommand w))
        index := s.index + 1 } ∧
    Cause.illegalCommand.code = 0x01 ∧
    (∀ t : State, t.fault = some ⟨.illegalCommand, w⟩ → ∀ o, verdict t ≠ .next o)

/-- R34, R167: the fault mark stays set until reset. -/
def Obligations.FaultMarkIsSticky : Prop :=
  ∀ s : State, s.rst = false → ∃ t : State, step s = .next t ∧
      (s.fault.isSome = true → t.fault.isSome = true)

/-- R34: a run that ends with its mark set is never a successful run, and one that ends without it shows
its final observation (R36), be a reset still to come or not; with a further command to issue, or a busy
block, no run has ended. That a command after a reset is a further one is the model's choice (log entry
29). -/
def Obligations.MarkedRunIsNotSuccessful : Prop :=
  ∀ s : State,
    ((∀ x ∈ s.inputs, x = .reset) → s.busy = false →
      (∀ m, s.fault = some m → verdict s = .fault (.illegalCommand m.word)) ∧
      (s.fault = none → verdict s = .next ⟨s.dirs, lineTrace s.trace, s.responses, none⟩)) ∧
    ((∃ x ∈ s.inputs, x ≠ .reset) ∨ s.busy = true → verdict s = .refused .runNotEnded)

/-! ### Reset -/

/-- R37: the reset values the spec gives; the phase is `IDLE` with no agent of Env pulling a line (R181). -/
def Obligations.ResetValues : Prop :=
  State.reset.dirs = ⟨.rel, .rel⟩ ∧ State.reset.seq = none ∧ State.reset.fault = none ∧
  State.reset.trace = [] ∧ State.reset.busy = false ∧ State.reset.rspValid = false ∧
  State.reset.sclOe = false ∧ State.reset.sdaOe = false ∧ busPhase false false State.reset.trace = .idle ∧
  padOutput = false ∧ padPullup = false ∧ readRsp State.reset = .refused .rspOutsidePulse

/-- R180: reset at any time, in the middle of a command too: the trace is empty, so the transition is no
event and no condition, and the next step accepts the first command offered. R181: the bus phase is then
`IDLE` only if no agent of Env holds a line low. The model's choices: the phase is BUSY otherwise (log
entry 30) and taken by the master-created conditions (log entry 24), and the host's inputs stay as they
are (log entry 6). -/
def Obligations.ResetReleasesTheLines : Prop :=
  ∀ (s : State) (rest : List Input), s.inputs = .reset :: rest →
    ∃ t : State, step s = .next t ∧ t.dirs = ⟨.rel, .rel⟩ ∧ t.seq = none ∧ t.busy = false ∧
      t.rspValid = false ∧ t.fault = none ∧ t.trace = [] ∧ t.inputs = rest ∧
      (∀ pullsC pullsD,
        busPhase pullsC pullsD t.trace = .idle ↔ pullsC = false ∧ pullsD = false) ∧
      (∀ w i rest', rest = .command w :: rest' → decode w = .ok i →
        step t = exec i { t with inputs := rest' })

/-- R194, R180: a reset that arrives after `k` micro-steps of a command abandons it: no further micro-step
runs and no response is given (that the list of responses is then empty is log entry 5). -/
def Obligations.ResetAbandonsTheCommand : Prop :=
  ∀ (s : State) (w : Word) (i : Instr) (k : Nat) (rest : List Input),
    s.busy = false → s.inputs = .partway w k :: .reset :: rest → decode w = .ok i →
    k < microCount i →
    ∃ t u : State, step s = .next t ∧ t.busy = true ∧ t.responses = s.responses ∧
      t.rspValid = false ∧
      step t = .next u ∧ u.busy = false ∧ u.dirs = ⟨.rel, .rel⟩ ∧ u.trace = [] ∧
      u.responses = [] ∧ u.rspValid = false

/-! ### Wires, conditions, phase -/

/-- R25: the wired-AND of every agent's drive; without pull-ups the level of a released, undriven wire is a
free value, which is the model's choice (log entry 10). -/
def Obligations.WireIsTheWiredAnd : Prop :=
  ∀ (s : State) (l : Line) (pulled : Bool),
    (s.dirs.get l = .low → s.wireLevel l pulled = false) ∧
    (s.dirs.get l = .rel → pulled = true → s.wireLevel l pulled = false) ∧
    (s.dirs.get l = .rel → pulled = false →
      s.wireLevel l pulled
        = if Config.pullups then true else Config.floatingLevel l s.earlier s.trace)

/-- R23, R193: the block never drives a line high: the output value is fixed at 0 and stands on the line
exactly while the driver is enabled. -/
def Obligations.LineIsNeverDrivenHigh : Prop :=
  padOutput = false ∧
  ∀ x : Dir, padDrive x ≠ some true ∧ (padDrive x = some padOutput ↔ x = .low) ∧
    (padDrive x = none ↔ x = .rel)

/-- R30: a bus condition is a change of `dir[D]` while `dir[C]` is released, falling START and rising
STOP; a change of `dir[C]` alone, or none of `dir[D]`, is no condition; and it shows on the wires only
if no agent pulls C or D low. That it does appear where none pulls, without pull-ups too, is the model's
choice (log entry 31). -/
def Obligations.BusConditions : Prop :=
  ∀ (x y : Dirs) (pullsC pullsD : Bool),
    (conditionOf x y = some .start ↔ x = ⟨.rel, .rel⟩ ∧ y = ⟨.rel, .low⟩) ∧
    (conditionOf x y = some .stop ↔ x = ⟨.rel, .low⟩ ∧ y = ⟨.rel, .rel⟩) ∧
    (x.d = y.d → conditionOf x y = none) ∧
    wireCondition pullsC pullsD x y
      = if pullsC = false ∧ pullsD = false then conditionOf x y else none

/-- R31, R181: the bus phase is `IDLE` after reset only if no agent of Env holds a line low (BUSY
otherwise is the model's choice, log entry 30), `BUSY` at each START condition and `IDLE` at each STOP
condition, and no other event changes it (master-created conditions, log entry 24). -/
def Obligations.BusPhaseFollowsConditions : Prop :=
  ∀ pullsC pullsD : Bool,
    (busPhase pullsC pullsD [] = .idle ↔ pullsC = false ∧ pullsD = false) ∧
    ∀ (tr : Trace) (e : Event),
      busPhase pullsC pullsD (tr ++ [e])
        = match conditionOf (replay ⟨.rel, .rel⟩ tr) (e.effect (replay ⟨.rel, .rel⟩ tr)) with
          | some .start => .busy
          | some .stop => .idle
          | none => busPhase pullsC pullsD tr

/-- R31, R122, R123: in every state whose trace leads to its directions, the bus is busy after `START`
and idle after `STOP`, whatever Env pulled at reset (master-created conditions, log entry 24). -/
def Obligations.PhaseAfterStartAndStop : Prop :=
  ∀ s : State, s.TraceLeadsToDirs →
    (∃ t : State, exec .start s = .next t ∧
      ∀ pullsC pullsD, busPhase pullsC pullsD t.trace = .busy) ∧
    (∃ t : State, exec .stop s = .next t ∧
      ∀ pullsC pullsD, busPhase pullsC pullsD t.trace = .idle)

/-! ### Invariants -/

/-- R104, R22: only the micro-steps change the directions, and each is recorded: every step keeps the
trace leading to the directions. -/
def Obligations.StepKeepsTraceLeadingToDirs : Prop :=
  ∀ s t : State, s.TraceLeadsToDirs → step s = .next t → t.TraceLeadsToDirs

/-- R33, R35, R87: every step keeps the books. That a reset brings the index and the responses back to
nothing beside the emptied trace is the model's choice (log entry 5). -/
def Obligations.StepKeepsBooks : Prop :=
  ∀ s t : State, s.BooksBalance → step s = .next t → t.BooksBalance

/-- R28, R32, R76: every step keeps the sequencer sound. -/
def Obligations.StepKeepsSequencerSound : Prop :=
  ∀ s t : State, s.SequencerSound → step s = .next t → t.SequencerSound

/-- R163, R167: every step keeps the fault mark the record of the last illegal word. That a reset
empties the list of responses with the mark is the model's choice (log entry 5). -/
def Obligations.StepKeepsMarkSound : Prop :=
  ∀ s t : State, s.MarkSound → step s = .next t → t.MarkSound

/-- The four invariants hold right after reset. -/
def Obligations.InvariantsHoldAtReset : Prop :=
  State.reset.TraceLeadsToDirs ∧ State.reset.BooksBalance ∧ State.reset.SequencerSound ∧
  State.reset.MarkSound

/-! ### Counts, host sequences, host values -/

/-- R195: the micro-steps, mandatory delays and least durations of the commands. -/
def Obligations.MicroStepAndDelayCounts : Prop :=
  (∀ l, microCount (.rel l) = 1 ∧ waitCount (.rel l) = 0) ∧
  (∀ l, microCount (.low l) = 1 ∧ waitCount (.low l) = 0) ∧
  (microCount (.rd .d) = 1 ∧ waitCount (.rd .d) = 0) ∧
  (microCount .start = 7 ∧ minDuration .start = 3 * Config.tDelay) ∧
  (microCount .stop = 5 ∧ minDuration .stop = 2 * Config.tDelay) ∧
  (∀ b, microCount (.wrb b) = 55 ∧ minDuration (.wrb b) = 26 * Config.tDelay) ∧
  (∀ k, microCount (.rdb k) = 47 ∧ minDuration (.rdb k) = 18 * Config.tDelay)

/-- R196: the mandatory delays in the clock phases of the byte commands: one in each clock-high phase, two
between two data bits of `WRB` and one elsewhere in each clock-low phase; nine clock pulses (R85); one
in START hold, repeated-START set-up and STOP set-up, two in the bus-free time from `STOP` to `START`. -/
def Obligations.ClockPhasesHoldDelays : Prop :=
  (∀ b, clockHighDelays (.wrb b) = [1, 1, 1, 1, 1, 1, 1, 1, 1] ∧
    clockLowDelays (.wrb b) = [2, 2, 2, 2, 2, 2, 2, 1]) ∧
  (∀ k, clockHighDelays (.rdb k) = [1, 1, 1, 1, 1, 1, 1, 1, 1] ∧
    clockLowDelays (.rdb k) = [1, 1, 1, 1, 1, 1, 1, 1]) ∧
  clockHighDelays .start = [2] ∧
  phaseDelays (.low .d) (.low .c) none (program .start) = [1] ∧
  phaseDelays (.rel .c) (.low .d) none (program .start) = [1] ∧
  phaseDelays (.rel .c) (.rel .d) none (program .stop) = [1] ∧
  phaseDelays (.rel .d) (.low .d) none (program .stop ++ program .start) = [2]

/-- R82, R174: a burst of `n >= 1` bytes reads with `n - 1` ACKs and then one NACK, inside the framing the
host owes; `n = 0` has no expansion. -/
def Obligations.BurstEndsWithOneNack : Prop :=
  ∀ (sa : BitVec 7) (a : Byte) (n : Nat), rburst sa a 0 = none ∧
    ∃ cmds, rburst sa a (n + 1) = some cmds ∧
      cmds.filter (fun i => match i with | .rdb _ => true | _ => false)
        = List.replicate n (Instr.rdb true) ++ [Instr.rdb false] ∧
      hostFramed .outside cmds = true

/-- R54: the host's combination of two bytes: `hi*256 + lo - (65536 if hi >= 0x80 else 0)`. -/
def Obligations.CombinationIsSignedBigEndian : Prop :=
  ∀ hi lo : Byte, combine hi lo
    = (hi.toNat : Int) * 256 + lo.toNat - (if 0x80 ≤ hi.toNat then 65536 else 0) ∧
    combine hi lo = (hi ++ lo : Word).toInt

/-! ### The phase an observer of the wires sees -/

/-- R31, R30, R181: the other phase R31 leaves to the observer, by the conditions on the wires: an event
changes it exactly where it creates a condition while no agent of Env pulls C or D low, and it starts
as the phase after reset. Where Env pulls nothing it is the phase by the master-created conditions
(log entries 24, 30), without pull-ups too (log entry 31). -/
def Obligations.PhaseOnTheWiresFollowsUnpulledConditions : Prop :=
  ∀ (pullsC pullsD : Bool) (pulls : List (Bool × Bool)) (tr : Trace),
    busPhaseOnWires pullsC pullsD [] [] = busPhase pullsC pullsD [] ∧
    (pulls.length = tr.length → ∀ (nowC nowD : Bool) (e : Event),
      busPhaseOnWires pullsC pullsD (pulls ++ [(nowC, nowD)]) (tr ++ [e])
        = if nowC = false ∧ nowD = false then
            match conditionOf (replay ⟨.rel, .rel⟩ tr) (e.effect (replay ⟨.rel, .rel⟩ tr)) with
            | some .start => .busy
            | some .stop => .idle
            | none => busPhaseOnWires pullsC pullsD pulls tr
          else busPhaseOnWires pullsC pullsD pulls tr) ∧
    busPhaseOnWires pullsC pullsD (List.replicate tr.length (false, false)) tr
      = busPhase pullsC pullsD tr
end

