-- ==== Sys2Proof/Laws/Decode.lean ====
section
/-! SUPPORT. The fields of a word and the word of its fields (spec/30_encoding.md R71). -/

namespace Sys2Proof

/-- A word is its four fields. -/
theorem ofFields_fields (w : Word) :
    ofFields (opField w) (zField w) (fField w) (dataField w) = w := by
  apply BitVec.eq_of_getLsbD_eq
  intro i hi
  simp only [ofFields, opField, zField, fField, dataField]
  interval_cases i <;> simp

@[simp] theorem opField_ofFields (op : BitVec 4) (z : BitVec 3) (f : Bool) (d : Byte) :
    opField (ofFields op z f d) = op := by
  apply BitVec.eq_of_getLsbD_eq
  intro i hi
  simp only [ofFields, opField]
  interval_cases i <;> simp

@[simp] theorem zField_ofFields (op : BitVec 4) (z : BitVec 3) (f : Bool) (d : Byte) :
    zField (ofFields op z f d) = z := by
  apply BitVec.eq_of_getLsbD_eq
  intro i hi
  simp only [ofFields, zField]
  interval_cases i <;> simp

@[simp] theorem fField_ofFields (op : BitVec 4) (z : BitVec 3) (f : Bool) (d : Byte) :
    fField (ofFields op z f d) = f := by
  simp [ofFields, fField]

@[simp] theorem dataField_ofFields (op : BitVec 4) (z : BitVec 3) (f : Bool) (d : Byte) :
    dataField (ofFields op z f d) = d := by
  apply BitVec.eq_of_getLsbD_eq
  intro i hi
  simp only [ofFields, dataField]
  interval_cases i <;> simp

end Sys2Proof
end

