-- ==== Sys2Proof/Laws/State.lean ====
section
/-! SUPPORT. What each shared operation does to each field of the state, true by unfolding it, so that
no later proof unfolds a record update. -/

namespace Sys2Proof.Machine

@[simp] theorem State.setDir_dirs (s : State) (l : Line) (v : Dir) : (s.setDir l v).dirs = s.dirs.set l v := rfl
@[simp] theorem State.setDir_seq (s : State) (l : Line) (v : Dir) : (s.setDir l v).seq = s.seq := rfl
@[simp] theorem State.setDir_fault (s : State) (l : Line) (v : Dir) : (s.setDir l v).fault = s.fault := rfl
@[simp] theorem State.setDir_trace (s : State) (l : Line) (v : Dir) : (s.setDir l v).trace = s.trace := rfl
@[simp] theorem State.setDir_responses (s : State) (l : Line) (v : Dir) : (s.setDir l v).responses = s.responses := rfl
@[simp] theorem State.setDir_index (s : State) (l : Line) (v : Dir) : (s.setDir l v).index = s.index := rfl
@[simp] theorem State.setDir_rsp (s : State) (l : Line) (v : Dir) : (s.setDir l v).rsp = s.rsp := rfl
@[simp] theorem State.setDir_inputs (s : State) (l : Line) (v : Dir) : (s.setDir l v).inputs = s.inputs := rfl
@[simp] theorem State.setDir_answers (s : State) (l : Line) (v : Dir) : (s.setDir l v).answers = s.answers := rfl
@[simp] theorem State.setDir_earlier (s : State) (l : Line) (v : Dir) : (s.setDir l v).earlier = s.earlier := rfl

@[simp] theorem State.record_dirs (s : State) (e : Event) : (s.record e).dirs = s.dirs := rfl
@[simp] theorem State.record_seq (s : State) (e : Event) : (s.record e).seq = s.seq := rfl
@[simp] theorem State.record_fault (s : State) (e : Event) : (s.record e).fault = s.fault := rfl
@[simp] theorem State.record_trace (s : State) (e : Event) : (s.record e).trace = s.trace ++ [e] := rfl
@[simp] theorem State.record_responses (s : State) (e : Event) : (s.record e).responses = s.responses := rfl
@[simp] theorem State.record_index (s : State) (e : Event) : (s.record e).index = s.index := rfl
@[simp] theorem State.record_rsp (s : State) (e : Event) : (s.record e).rsp = s.rsp := rfl
@[simp] theorem State.record_inputs (s : State) (e : Event) : (s.record e).inputs = s.inputs := rfl
@[simp] theorem State.record_answers (s : State) (e : Event) : (s.record e).answers = s.answers := rfl
@[simp] theorem State.record_earlier (s : State) (e : Event) : (s.record e).earlier = s.earlier := rfl

@[simp] theorem State.dropAnswer_dirs (s : State) : (s.dropAnswer).dirs = s.dirs := rfl
@[simp] theorem State.dropAnswer_seq (s : State) : (s.dropAnswer).seq = s.seq := rfl
@[simp] theorem State.dropAnswer_fault (s : State) : (s.dropAnswer).fault = s.fault := rfl
@[simp] theorem State.dropAnswer_trace (s : State) : (s.dropAnswer).trace = s.trace := rfl
@[simp] theorem State.dropAnswer_responses (s : State) : (s.dropAnswer).responses = s.responses := rfl
@[simp] theorem State.dropAnswer_index (s : State) : (s.dropAnswer).index = s.index := rfl
@[simp] theorem State.dropAnswer_rsp (s : State) : (s.dropAnswer).rsp = s.rsp := rfl
@[simp] theorem State.dropAnswer_inputs (s : State) : (s.dropAnswer).inputs = s.inputs := rfl
@[simp] theorem State.dropAnswer_answers (s : State) : (s.dropAnswer).answers = s.answers.tail := rfl
@[simp] theorem State.dropAnswer_earlier (s : State) : (s.dropAnswer).earlier = s.earlier := rfl

@[simp] theorem State.store_dirs (s : State) (dst : Dest) (v : Level) : (s.store dst v).dirs = s.dirs := rfl
@[simp] theorem State.store_seq (s : State) (dst : Dest) (v : Level) : (s.store dst v).seq = s.seq.map (fun q => q.store dst v) := rfl
@[simp] theorem State.store_fault (s : State) (dst : Dest) (v : Level) : (s.store dst v).fault = s.fault := rfl
@[simp] theorem State.store_trace (s : State) (dst : Dest) (v : Level) : (s.store dst v).trace = s.trace := rfl
@[simp] theorem State.store_responses (s : State) (dst : Dest) (v : Level) : (s.store dst v).responses = s.responses := rfl
@[simp] theorem State.store_index (s : State) (dst : Dest) (v : Level) : (s.store dst v).index = s.index := rfl
@[simp] theorem State.store_rsp (s : State) (dst : Dest) (v : Level) : (s.store dst v).rsp = s.rsp := rfl
@[simp] theorem State.store_inputs (s : State) (dst : Dest) (v : Level) : (s.store dst v).inputs = s.inputs := rfl
@[simp] theorem State.store_answers (s : State) (dst : Dest) (v : Level) : (s.store dst v).answers = s.answers := rfl
@[simp] theorem State.store_earlier (s : State) (dst : Dest) (v : Level) : (s.store dst v).earlier = s.earlier := rfl

@[simp] theorem State.bumpPos_dirs (s : State) : (s.bumpPos).dirs = s.dirs := rfl
@[simp] theorem State.bumpPos_seq (s : State) : (s.bumpPos).seq = s.seq.map (fun q => { q with pos := q.pos + 1 }) := rfl
@[simp] theorem State.bumpPos_fault (s : State) : (s.bumpPos).fault = s.fault := rfl
@[simp] theorem State.bumpPos_trace (s : State) : (s.bumpPos).trace = s.trace := rfl
@[simp] theorem State.bumpPos_responses (s : State) : (s.bumpPos).responses = s.responses := rfl
@[simp] theorem State.bumpPos_index (s : State) : (s.bumpPos).index = s.index := rfl
@[simp] theorem State.bumpPos_rsp (s : State) : (s.bumpPos).rsp = s.rsp := rfl
@[simp] theorem State.bumpPos_inputs (s : State) : (s.bumpPos).inputs = s.inputs := rfl
@[simp] theorem State.bumpPos_answers (s : State) : (s.bumpPos).answers = s.answers := rfl
@[simp] theorem State.bumpPos_earlier (s : State) : (s.bumpPos).earlier = s.earlier := rfl

@[simp] theorem extraDelays_dirs (s : State) (slack : Slack) : (extraDelays slack s).dirs = s.dirs := rfl
@[simp] theorem extraDelays_seq (s : State) (slack : Slack) : (extraDelays slack s).seq = s.seq := rfl
@[simp] theorem extraDelays_fault (s : State) (slack : Slack) : (extraDelays slack s).fault = s.fault := rfl
@[simp] theorem extraDelays_trace (s : State) (slack : Slack) : (extraDelays slack s).trace = s.trace ++ List.replicate (slack s.earlier s.trace) .wait := rfl
@[simp] theorem extraDelays_responses (s : State) (slack : Slack) : (extraDelays slack s).responses = s.responses := rfl
@[simp] theorem extraDelays_index (s : State) (slack : Slack) : (extraDelays slack s).index = s.index := rfl
@[simp] theorem extraDelays_rsp (s : State) (slack : Slack) : (extraDelays slack s).rsp = s.rsp := rfl
@[simp] theorem extraDelays_inputs (s : State) (slack : Slack) : (extraDelays slack s).inputs = s.inputs := rfl
@[simp] theorem extraDelays_answers (s : State) (slack : Slack) : (extraDelays slack s).answers = s.answers := rfl
@[simp] theorem extraDelays_earlier (s : State) (slack : Slack) : (extraDelays slack s).earlier = s.earlier := rfl

@[simp] theorem accept_dirs (s : State) (i : Instr) : (accept i s).dirs = s.dirs := rfl
@[simp] theorem accept_seq (s : State) (i : Instr) : (accept i s).seq = some { instr := i, pos := 0, shift := 0x00, sample := false } := rfl
@[simp] theorem accept_fault (s : State) (i : Instr) : (accept i s).fault = s.fault := rfl
@[simp] theorem accept_trace (s : State) (i : Instr) : (accept i s).trace = s.trace ++ [.issue (encode i)] := rfl
@[simp] theorem accept_responses (s : State) (i : Instr) : (accept i s).responses = s.responses := rfl
@[simp] theorem accept_index (s : State) (i : Instr) : (accept i s).index = s.index := rfl
@[simp] theorem accept_rsp (s : State) (i : Instr) : (accept i s).rsp = none := rfl
@[simp] theorem accept_inputs (s : State) (i : Instr) : (accept i s).inputs = s.inputs := rfl
@[simp] theorem accept_answers (s : State) (i : Instr) : (accept i s).answers = s.answers := rfl
@[simp] theorem accept_earlier (s : State) (i : Instr) : (accept i s).earlier = s.earlier := rfl

@[simp] theorem respond_dirs (s : State) (op : BitVec 4) (r : Response) : (respond op r s).dirs = s.dirs := rfl
@[simp] theorem respond_seq (s : State) (op : BitVec 4) (r : Response) : (respond op r s).seq = s.seq := rfl
@[simp] theorem respond_fault (s : State) (op : BitVec 4) (r : Response) : (respond op r s).fault = s.fault := rfl
@[simp] theorem respond_trace (s : State) (op : BitVec 4) (r : Response) : (respond op r s).trace = s.trace := rfl
@[simp] theorem respond_responses (s : State) (op : BitVec 4) (r : Response) : (respond op r s).responses = s.responses ++ [r] := rfl
@[simp] theorem respond_index (s : State) (op : BitVec 4) (r : Response) : (respond op r s).index = s.index + 1 := rfl
@[simp] theorem respond_rsp (s : State) (op : BitVec 4) (r : Response) : (respond op r s).rsp = some (rspWord op r) := rfl
@[simp] theorem respond_inputs (s : State) (op : BitVec 4) (r : Response) : (respond op r s).inputs = s.inputs := rfl
@[simp] theorem respond_answers (s : State) (op : BitVec 4) (r : Response) : (respond op r s).answers = s.answers := rfl
@[simp] theorem respond_earlier (s : State) (op : BitVec 4) (r : Response) : (respond op r s).earlier = s.earlier := rfl

@[simp] theorem raiseIllegal_dirs (s : State) (w : Word) : (raiseIllegal w s).dirs = s.dirs := rfl
@[simp] theorem raiseIllegal_seq (s : State) (w : Word) : (raiseIllegal w s).seq = s.seq := rfl
@[simp] theorem raiseIllegal_fault (s : State) (w : Word) : (raiseIllegal w s).fault = some ⟨.illegalCommand, w⟩ := rfl
@[simp] theorem raiseIllegal_trace (s : State) (w : Word) : (raiseIllegal w s).trace = s.trace ++ [.issue w] := rfl
@[simp] theorem raiseIllegal_responses (s : State) (w : Word) : (raiseIllegal w s).responses = s.responses ++ [.illegal .illegalCommand w] := rfl
@[simp] theorem raiseIllegal_index (s : State) (w : Word) : (raiseIllegal w s).index = s.index + 1 := rfl
@[simp] theorem raiseIllegal_rsp (s : State) (w : Word) : (raiseIllegal w s).rsp = some (rspWord (opField w) (.illegal .illegalCommand w)) := rfl
@[simp] theorem raiseIllegal_inputs (s : State) (w : Word) : (raiseIllegal w s).inputs = s.inputs := rfl
@[simp] theorem raiseIllegal_answers (s : State) (w : Word) : (raiseIllegal w s).answers = s.answers := rfl
@[simp] theorem raiseIllegal_earlier (s : State) (w : Word) : (raiseIllegal w s).earlier = s.earlier := rfl

@[simp] theorem resetBlock_dirs (s : State) : (resetBlock s).dirs = ⟨.rel, .rel⟩ := rfl
@[simp] theorem resetBlock_seq (s : State) : (resetBlock s).seq = none := rfl
@[simp] theorem resetBlock_fault (s : State) : (resetBlock s).fault = none := rfl
@[simp] theorem resetBlock_trace (s : State) : (resetBlock s).trace = [] := rfl
@[simp] theorem resetBlock_responses (s : State) : (resetBlock s).responses = [] := rfl
@[simp] theorem resetBlock_index (s : State) : (resetBlock s).index = 0 := rfl
@[simp] theorem resetBlock_rsp (s : State) : (resetBlock s).rsp = none := rfl
@[simp] theorem resetBlock_inputs (s : State) : (resetBlock s).inputs = s.inputs := rfl
@[simp] theorem resetBlock_answers (s : State) : (resetBlock s).answers = s.answers := rfl
@[simp] theorem resetBlock_earlier (s : State) : (resetBlock s).earlier = s.trace :: s.earlier := rfl

@[simp] theorem idle_dirs (s : State) : (idle s).dirs = s.dirs := rfl
@[simp] theorem idle_seq (s : State) : (idle s).seq = s.seq := rfl
@[simp] theorem idle_fault (s : State) : (idle s).fault = s.fault := rfl
@[simp] theorem idle_trace (s : State) : (idle s).trace = s.trace := rfl
@[simp] theorem idle_responses (s : State) : (idle s).responses = s.responses := rfl
@[simp] theorem idle_index (s : State) : (idle s).index = s.index := rfl
@[simp] theorem idle_rsp (s : State) : (idle s).rsp = none := rfl
@[simp] theorem idle_inputs (s : State) : (idle s).inputs = s.inputs := rfl
@[simp] theorem idle_answers (s : State) : (idle s).answers = s.answers := rfl
@[simp] theorem idle_earlier (s : State) : (idle s).earlier = s.earlier := rfl

@[simp] theorem State.dropInput_dirs (s : State) : (s.dropInput).dirs = s.dirs := rfl
@[simp] theorem State.dropInput_seq (s : State) : (s.dropInput).seq = s.seq := rfl
@[simp] theorem State.dropInput_fault (s : State) : (s.dropInput).fault = s.fault := rfl
@[simp] theorem State.dropInput_trace (s : State) : (s.dropInput).trace = s.trace := rfl
@[simp] theorem State.dropInput_responses (s : State) : (s.dropInput).responses = s.responses := rfl
@[simp] theorem State.dropInput_index (s : State) : (s.dropInput).index = s.index := rfl
@[simp] theorem State.dropInput_rsp (s : State) : (s.dropInput).rsp = s.rsp := rfl
@[simp] theorem State.dropInput_inputs (s : State) : (s.dropInput).inputs = s.inputs.tail := rfl
@[simp] theorem State.dropInput_answers (s : State) : (s.dropInput).answers = s.answers := rfl
@[simp] theorem State.dropInput_earlier (s : State) : (s.dropInput).earlier = s.earlier := rfl

@[simp] theorem offerNext_dirs (s : State) (w : Word) : (offerNext w s).dirs = s.dirs := rfl
@[simp] theorem offerNext_seq (s : State) (w : Word) : (offerNext w s).seq = none := rfl
@[simp] theorem offerNext_fault (s : State) (w : Word) : (offerNext w s).fault = s.fault := rfl
@[simp] theorem offerNext_trace (s : State) (w : Word) : (offerNext w s).trace = s.trace := rfl
@[simp] theorem offerNext_responses (s : State) (w : Word) : (offerNext w s).responses = s.responses := rfl
@[simp] theorem offerNext_index (s : State) (w : Word) : (offerNext w s).index = s.index := rfl
@[simp] theorem offerNext_rsp (s : State) (w : Word) : (offerNext w s).rsp = s.rsp := rfl
@[simp] theorem offerNext_inputs (s : State) (w : Word) : (offerNext w s).inputs = .command w :: s.inputs := rfl
@[simp] theorem offerNext_answers (s : State) (w : Word) : (offerNext w s).answers = s.answers := rfl
@[simp] theorem offerNext_earlier (s : State) (w : Word) : (offerNext w s).earlier = s.earlier := rfl

end Sys2Proof.Machine
end

