-- ==== Sys2Proof/Laws/Ops.lean ====
section
/-! SUPPORT. One lemma per shared operation that says everything it can do: a micro-step, a list of
micro-steps, a whole command. Proofs cite these and unfold none of the operations again. -/

namespace Sys2Proof.Machine

/-! ### What a list of micro-steps does, without the state -/

/-- The directions after a micro-step (R100 to R103). -/
def microDirs (x : Dirs) : Micro → Dirs
  | .rel l => x.set l .rel
  | .low l => x.set l .low
  | .rd _ => x.set .d .rel
  | .wait => x

/-- Does the micro-step sample the data line? -/
def Micro.isRead : Micro → Bool
  | .rd _ => true
  | .rel _ => false
  | .low _ => false
  | .wait => false

@[simp] theorem Micro.isRead_rel (l : Line) : (Micro.rel l).isRead = false := rfl
@[simp] theorem Micro.isRead_low (l : Line) : (Micro.low l).isRead = false := rfl
@[simp] theorem Micro.isRead_wait : Micro.wait.isRead = false := rfl
@[simp] theorem Micro.isRead_rd (dst : Dest) : (Micro.rd dst).isRead = true := rfl

/-- The events of a micro-step list whose samples answer `vs` in order, mandatory delays included. -/
def microEvents : List Micro → List Level → Trace
  | [], _ => []
  | .rel l :: ms, vs => .rel l :: microEvents ms vs
  | .low l :: ms, vs => .low l :: microEvents ms vs
  | .wait :: ms, vs => .wait :: microEvents ms vs
  | .rd _ :: ms, v :: vs => .rd v :: microEvents ms vs
  | .rd _ :: _, [] => []

/-- The sequencing state after a micro-step list whose samples answer `vs` in order. -/
def storeAll (q : Running) : List Micro → List Level → Running
  | [], _ => q
  | .rd dst :: ms, v :: vs => storeAll { q.store dst v with pos := q.pos + 1 } ms vs
  | .rd _ :: _, [] => q
  | .rel _ :: ms, vs => storeAll { q with pos := q.pos + 1 } ms vs
  | .low _ :: ms, vs => storeAll { q with pos := q.pos + 1 } ms vs
  | .wait :: ms, vs => storeAll { q with pos := q.pos + 1 } ms vs

/-- The levels the samples of a micro-step list take, in order. -/
def readLevels (slack : Slack) : List Micro → State → List Level
  | [], _ => []
  | m :: ms, s =>
    if m.isRead then s.sampleLevel :: readLevels slack ms (microStep slack m s)
    else readLevels slack ms (microStep slack m s)

/-! ### One micro-step -/

@[simp] theorem Dirs.set_get (x : Dirs) (l : Line) (v : Dir) : (x.set l v).get l = v := by
  cases l <;> rfl

theorem Dirs.set_get_of_ne (x : Dirs) {l m : Line} (v : Dir) (h : m ≠ l) :
    (x.set l v).get m = x.get m := by
  cases l <;> cases m <;> first | rfl | exact absurd rfl h

@[simp] theorem Running.store_pos (q : Running) (dst : Dest) (v : Level) :
    (q.store dst v).pos = q.pos := by cases dst <;> rfl

@[simp] theorem Running.store_instr (q : Running) (dst : Dest) (v : Level) :
    (q.store dst v).instr = q.instr := by cases dst <;> rfl

@[simp] theorem State.sampleLevel_setDir (s : State) (l : Line) (v : Dir) :
    (s.setDir l v).sampleLevel = s.sampleLevel := rfl

theorem State.sampleLevel_cons {s : State} {v : Level} {vs : List Level} (h : s.answers = v :: vs) :
    s.sampleLevel = v := by simp [State.sampleLevel, h]

theorem State.sampleLevel_nil {s : State} (h : s.answers = []) :
    s.sampleLevel = Config.envSample s.earlier s.trace := by simp [State.sampleLevel, h]

section
variable (slack : Slack) (m : Micro) (s : State)

theorem microStep_dirs : (microStep slack m s).dirs = microDirs s.dirs m := by
  cases m <;> rfl

@[simp] theorem microStep_fault : (microStep slack m s).fault = s.fault := by cases m <;> rfl
@[simp] theorem microStep_responses : (microStep slack m s).responses = s.responses := by
  cases m <;> rfl
@[simp] theorem microStep_index : (microStep slack m s).index = s.index := by cases m <;> rfl
@[simp] theorem microStep_rsp : (microStep slack m s).rsp = s.rsp := by cases m <;> rfl
@[simp] theorem microStep_inputs : (microStep slack m s).inputs = s.inputs := by cases m <;> rfl
@[simp] theorem microStep_earlier : (microStep slack m s).earlier = s.earlier := by cases m <;> rfl

/-- Only a read uses up an answer of Env. -/
theorem microStep_answers :
    (microStep slack m s).answers = if m.isRead then s.answers.tail else s.answers := by
  cases m <;> rfl

/-- A micro-step records one event, then the implementation's further delays. -/
theorem microStep_trace : ∃ n,
    (microStep slack m s).trace
      = s.trace ++ (microEvents [m] [s.sampleLevel] ++ List.replicate n .wait) := by
  cases m <;> exact ⟨_, List.append_assoc _ _ _⟩

theorem microStep_seq :
    (microStep slack m s).seq = s.seq.map (fun q => storeAll q [m] [s.sampleLevel]) := by
  cases m <;> cases h : s.seq <;>
    simp [microStep, doMicro, release, driveLow, readData, delay, storeAll, h]

end

/-! ### Lists of micro-steps -/

@[simp] theorem lineTrace_nil : lineTrace [] = [] := rfl

@[simp] theorem lineTrace_append (a b : Trace) :
    lineTrace (a ++ b) = lineTrace a ++ lineTrace b := List.filter_append ..

@[simp] theorem lineTrace_replicate_wait (n : Nat) : lineTrace (List.replicate n .wait) = [] := by
  simp [lineTrace]

theorem microEvents_cons (m : Micro) (ms : List Micro) (v : Level) (vs : List Level) :
    microEvents (m :: ms) (if m.isRead then v :: vs else vs)
      = microEvents [m] [v] ++ microEvents ms vs := by
  cases m <;> rfl

theorem readLevels_cons (slack : Slack) (m : Micro) (ms : List Micro) (s : State) :
    readLevels slack (m :: ms) s
      = if m.isRead then s.sampleLevel :: readLevels slack ms (microStep slack m s)
        else readLevels slack ms (microStep slack m s) := rfl

theorem storeAll_cons (q : Running) (m : Micro) (ms : List Micro) (v : Level) (vs : List Level) :
    storeAll q (m :: ms) (if m.isRead then v :: vs else vs)
      = storeAll (storeAll q [m] [v]) ms vs := by
  cases m <;> rfl

section
variable (slack : Slack)

theorem runMicros_append (ms ns : List Micro) (s : State) :
    runMicros slack (ms ++ ns) s = runMicros slack ns (runMicros slack ms s) := by
  induction ms generalizing s with
  | nil => rfl
  | cons m ms ih => exact ih _

theorem runMicros_dirs (ms : List Micro) (s : State) :
    (runMicros slack ms s).dirs = ms.foldl microDirs s.dirs := by
  induction ms generalizing s with
  | nil => rfl
  | cons m ms ih => simp only [runMicros, ih, microStep_dirs, List.foldl_cons]

@[simp] theorem runMicros_fault (ms : List Micro) (s : State) :
    (runMicros slack ms s).fault = s.fault := by
  induction ms generalizing s with
  | nil => rfl
  | cons m ms ih => simp [runMicros, ih]

@[simp] theorem runMicros_responses (ms : List Micro) (s : State) :
    (runMicros slack ms s).responses = s.responses := by
  induction ms generalizing s with
  | nil => rfl
  | cons m ms ih => simp [runMicros, ih]

@[simp] theorem runMicros_index (ms : List Micro) (s : State) :
    (runMicros slack ms s).index = s.index := by
  induction ms generalizing s with
  | nil => rfl
  | cons m ms ih => simp [runMicros, ih]

@[simp] theorem runMicros_rsp (ms : List Micro) (s : State) :
    (runMicros slack ms s).rsp = s.rsp := by
  induction ms generalizing s with
  | nil => rfl
  | cons m ms ih => simp [runMicros, ih]

@[simp] theorem runMicros_inputs (ms : List Micro) (s : State) :
    (runMicros slack ms s).inputs = s.inputs := by
  induction ms generalizing s with
  | nil => rfl
  | cons m ms ih => simp [runMicros, ih]

@[simp] theorem runMicros_earlier (ms : List Micro) (s : State) :
    (runMicros slack ms s).earlier = s.earlier := by
  induction ms generalizing s with
  | nil => rfl
  | cons m ms ih => simp [runMicros, ih]

theorem runMicros_seq (ms : List Micro) (s : State) :
    (runMicros slack ms s).seq
      = s.seq.map (fun q => storeAll q ms (readLevels slack ms s)) := by
  induction ms generalizing s with
  | nil => cases h : s.seq <;> simp [runMicros, storeAll, h]
  | cons m ms ih =>
    rw [runMicros, ih, microStep_seq, readLevels_cons]
    simp only [storeAll_cons, Option.map_map, Function.comp_def]

/-- The events of a list of micro-steps: its own, with further delays among them (R121). -/
theorem runMicros_trace (ms : List Micro) (s : State) : ∃ evs,
    (runMicros slack ms s).trace = s.trace ++ evs ∧
    List.Sublist (microEvents ms (readLevels slack ms s)) evs ∧
    lineTrace evs = lineTrace (microEvents ms (readLevels slack ms s)) := by
  induction ms generalizing s with
  | nil => exact ⟨[], by simp [runMicros], by simp [microEvents], rfl⟩
  | cons m ms ih =>
    obtain ⟨n, hn⟩ := microStep_trace slack m s
    obtain ⟨evs, he, hsub, hl⟩ := ih (microStep slack m s)
    refine ⟨microEvents [m] [s.sampleLevel] ++ List.replicate n .wait ++ evs, ?_, ?_, ?_⟩
    · rw [runMicros, he, hn]; simp only [List.append_assoc]
    · rw [readLevels_cons, microEvents_cons]
      exact (List.sublist_append_left _ _).append hsub
    · rw [readLevels_cons, microEvents_cons]
      simp only [lineTrace_append, lineTrace_replicate_wait, List.append_nil, hl]

theorem runMicros_lineTrace (ms : List Micro) (s : State) :
    lineTrace (runMicros slack ms s).trace
      = lineTrace s.trace ++ lineTrace (microEvents ms (readLevels slack ms s)) := by
  obtain ⟨evs, he, -, hl⟩ := runMicros_trace slack ms s
  rw [he, lineTrace_append, hl]

theorem readLevels_length (ms : List Micro) (s : State) :
    (readLevels slack ms s).length = ms.countP Micro.isRead := by
  induction ms generalizing s with
  | nil => rfl
  | cons m ms ih => rw [readLevels_cons]; cases h : m.isRead <;> simp [h, ih]

/-- Where Env's answers are constrained, the samples are those answers, in order (R27). -/
theorem readLevels_of_answers (ms : List Micro) (s : State)
    (h : ms.countP Micro.isRead ≤ s.answers.length) :
    readLevels slack ms s = s.answers.take (ms.countP Micro.isRead) := by
  induction ms generalizing s with
  | nil => simp [readLevels]
  | cons m ms ih =>
    rw [readLevels_cons]
    cases hm : m.isRead with
    | false =>
      have h' : ms.countP Micro.isRead ≤ s.answers.length := by simpa [hm] using h
      have ha : (microStep slack m s).answers = s.answers := by simp [microStep_answers, hm]
      simpa [hm, ha] using ih (microStep slack m s) (by rw [ha]; exact h')
    | true =>
      cases hs : s.answers with
      | nil => simp [hm, hs] at h
      | cons v vs =>
        have ha : (microStep slack m s).answers = vs := by simp [microStep_answers, hm, hs]
        have h' : ms.countP Micro.isRead ≤ vs.length := by simpa [hm, hs] using h
        simp [hm, State.sampleLevel_cons hs, ih (microStep slack m s) (by rw [ha]; exact h'), ha]

theorem runMicros_answers (ms : List Micro) (s : State) :
    (runMicros slack ms s).answers = s.answers.drop (ms.countP Micro.isRead) := by
  induction ms generalizing s with
  | nil => rfl
  | cons m ms ih =>
    rw [runMicros, ih, microStep_answers]
    cases h : m.isRead <;> simp [h]

end

/-! ### A whole command -/

/-- The levels the samples of a command take, in order. -/
def commandLevels (slack : Slack) (i : Instr) (ms : List Micro) (s : State) : List Level :=
  readLevels (delaysOf slack i) ms (accept i s)

/-- The sequencing state at the end of a command. -/
def commandEnd (slack : Slack) (i : Instr) (ms : List Micro) (s : State) : Running :=
  storeAll { instr := i, pos := 0, shift := 0x00, sample := false } ms (commandLevels slack i ms s)

@[simp] theorem storeAll_instr (q : Running) (ms : List Micro) (vs : List Level) :
    (storeAll q ms vs).instr = q.instr := by
  induction ms generalizing q vs with
  | nil => rfl
  | cons m ms ih =>
    cases m with
    | rd dst =>
      cases vs with
      | nil => rfl
      | cons v vs => rw [storeAll, ih]; cases dst <;> rfl
    | rel l => rw [storeAll, ih]
    | low l => rw [storeAll, ih]
    | wait => rw [storeAll, ih]

section
variable (slack : Slack) (i : Instr) (ms : List Micro) (s : State)

theorem runCommand_eq :
    runCommand slack i ms s
      = { respond (opOf i) (responseOf (commandEnd slack i ms s))
            (runMicros (delaysOf slack i) ms (accept i s)) with seq := none } := by
  unfold runCommand complete
  rw [runMicros_seq]
  simp [commandEnd, commandLevels]

@[simp] theorem runCommand_seq : (runCommand slack i ms s).seq = none := by rw [runCommand_eq]
theorem runCommand_dirs : (runCommand slack i ms s).dirs = ms.foldl microDirs s.dirs := by
  rw [runCommand_eq]; exact runMicros_dirs ..
@[simp] theorem runCommand_fault : (runCommand slack i ms s).fault = s.fault := by
  simp [runCommand_eq]
@[simp] theorem runCommand_inputs : (runCommand slack i ms s).inputs = s.inputs := by
  simp [runCommand_eq]
@[simp] theorem runCommand_earlier : (runCommand slack i ms s).earlier = s.earlier := by
  simp [runCommand_eq]
@[simp] theorem runCommand_index : (runCommand slack i ms s).index = s.index + 1 := by
  simp [runCommand_eq]
theorem runCommand_responses :
    (runCommand slack i ms s).responses
      = s.responses ++ [responseOf (commandEnd slack i ms s)] := by
  simp [runCommand_eq]
theorem runCommand_rsp :
    (runCommand slack i ms s).rsp
      = some (rspWord (opOf i) (responseOf (commandEnd slack i ms s))) := by
  simp [runCommand_eq]
theorem runCommand_answers :
    (runCommand slack i ms s).answers = s.answers.drop (ms.countP Micro.isRead) := by
  rw [runCommand_eq]; exact runMicros_answers ..

/-- A command records its word, then its micro-steps' events with further delays among them. -/
theorem runCommand_trace : ∃ evs,
    (runCommand slack i ms s).trace = s.trace ++ .issue (encode i) :: evs ∧
    List.Sublist (microEvents ms (commandLevels slack i ms s)) evs ∧
    lineTrace evs = lineTrace (microEvents ms (commandLevels slack i ms s)) := by
  obtain ⟨evs, he, hsub, hl⟩ := runMicros_trace (delaysOf slack i) ms (accept i s)
  refine ⟨evs, ?_, hsub, hl⟩
  rw [runCommand_eq]
  show (runMicros _ _ _).trace = _
  rw [he]; simp

theorem runCommand_lineTrace :
    lineTrace (runCommand slack i ms s).trace
      = lineTrace s.trace
        ++ .issue (encode i) :: lineTrace (microEvents ms (commandLevels slack i ms s)) := by
  obtain ⟨evs, he, -, hl⟩ := runCommand_trace slack i ms s
  rw [he, lineTrace_append, ← hl]; rfl

theorem commandLevels_length :
    (commandLevels slack i ms s).length = ms.countP Micro.isRead := readLevels_length ..

theorem commandLevels_of_answers (h : ms.countP Micro.isRead ≤ s.answers.length) :
    commandLevels slack i ms s = s.answers.take (ms.countP Micro.isRead) :=
  readLevels_of_answers _ ms (accept i s) h

end

/-! ### Completion, one micro-step of a running command -/

theorem complete_none {s : State} (h : s.seq = none) : complete s = s := by simp [complete, h]

theorem complete_some {s : State} {q : Running} (h : s.seq = some q) :
    complete s = { respond (opOf q.instr) (responseOf q) s with seq := none } := by
  simp [complete, h]

/-- Everything one micro-step of the sequencer can do. -/
theorem advance_cases (slack : Slack) (s : State) :
    (s.seq = none ∧ advance slack s = s) ∨
    (∃ q m, s.seq = some q ∧ (program q.instr)[q.pos]? = some m ∧
      advance slack s = completeAtEnd (microStep (delaysOf slack q.instr) m s)) ∨
    (∃ q, s.seq = some q ∧ (program q.instr)[q.pos]? = none ∧ advance slack s = complete s) := by
  unfold advance
  split
  · next q hq =>
    split
    · next m hm => exact .inr (.inl ⟨q, m, hq, hm, rfl⟩)
    · next hm => exact .inr (.inr ⟨q, hq, hm, rfl⟩)
  · next hq => exact .inl ⟨hq, rfl⟩

/-- Everything the fetch can answer. -/
theorem fetch_cases (s : State) :
    (∃ r, s.inputs = .reset :: r ∧ fetch s = .reset s.dropInput) ∨
    (s.rst = false ∧ s.busy = true ∧ fetch s = .busy) ∨
    (s.inputs = [] ∧ s.busy = false ∧ fetch s = .nothing) ∨
    (∃ w r i, s.inputs = .command w :: r ∧ s.busy = false ∧ decode w = .ok i ∧
      fetch s = .command i s.dropInput) ∨
    (∃ w k r i, s.inputs = .partway w k :: r ∧ s.busy = false ∧ decode w = .ok i ∧
      fetch s = .partway i k s.dropInput) ∨
    (∃ w e, s.cmd = some w ∧ s.busy = false ∧ decode w = .illegal e ∧
      fetch s = .illegal w s.dropInput) := by
  cases hb : s.busy <;> rcases hi : s.inputs with _ | ⟨_ | _ | _, r⟩ <;>
    simp [fetch, State.rst, State.cmd, hi, hb]
  all_goals split <;> simp_all

end Sys2Proof.Machine
end

