-- ==== Sys2Proof/Laws/PerInstr.lean ====
section
/-! SUPPORT. One lemma per command: the word of a well-formed command selects exactly one row of the
opcode map, its own (spec/30_encoding.md R74, R77). -/

namespace Sys2Proof.Laws

/-- The rows of the opcode map that a word selects are one, and it bears the command's mnemonic. -/
def TableRow.Statement (i : Instr) : Prop :=
  WellFormed i →
    (opcodeTable.filter (fun r => r.selects (encode i))).map (fun r => r.mnemonic) = [mnemonicOf i]

theorem TableRow.rel (l : Line) : TableRow.Statement (.rel l) := by
  cases l <;> intro _ <;> decide

theorem TableRow.low (l : Line) : TableRow.Statement (.low l) := by
  cases l <;> intro _ <;> decide

theorem TableRow.rd (l : Line) : TableRow.Statement (.rd l) := by
  cases l <;> intro h
  · exact absurd h (by decide)
  · decide

theorem TableRow.start : TableRow.Statement .start := by intro _; decide

theorem TableRow.stop : TableRow.Statement .stop := by intro _; decide

/-- The word of `WRB b` is 0x60 above the byte. -/
theorem TableRow.wrb (b : Byte) : TableRow.Statement (.wrb b) := by
  intro _
  revert b
  decide

theorem TableRow.rdb (k : Bool) : TableRow.Statement (.rdb k) := by
  cases k <;> intro _ <;> decide

end Sys2Proof.Laws
end

