-- ==== Sys2Proof/Laws/Wire.lean ====
section
/-! SUPPORT. Laws of the derived views: replaying a trace, its conditions, what a slave sees. None of
them depends on the delays of a trace (spec/41_protocol_engine.md R121). -/

namespace Sys2Proof.Machine

@[simp] theorem replay_nil (x : Dirs) : replay x [] = x := rfl

@[simp] theorem replay_cons (x : Dirs) (e : Event) (es : Trace) :
    replay x (e :: es) = replay (e.effect x) es := rfl

@[simp] theorem replay_append (x : Dirs) (a b : Trace) :
    replay x (a ++ b) = replay (replay x a) b := List.foldl_append ..

@[simp] theorem conditions_nil (x : Dirs) : conditions x [] = [] := rfl

theorem conditions_cons (x : Dirs) (e : Event) (es : Trace) :
    conditions x (e :: es)
      = (conditionOf x (e.effect x)).toList ++ conditions (e.effect x) es := by
  cases h : conditionOf x (e.effect x) <;> simp [conditions, annotate, h]

theorem conditions_append (x : Dirs) (a b : Trace) :
    conditions x (a ++ b) = conditions x a ++ conditions (replay x a) b := by
  induction a generalizing x with
  | nil => rfl
  | cons e es ih => simp [conditions_cons, ih]

@[simp] theorem conditionOf_self (x : Dirs) : conditionOf x x = none := by
  rcases x with ⟨_ | _, _ | _⟩ <;> rfl

theorem replay_lineTrace (x : Dirs) (tr : Trace) : replay x (lineTrace tr) = replay x tr := by
  induction tr generalizing x with
  | nil => rfl
  | cons e es ih => cases e <;> simp_all [lineTrace, Event.effect]

theorem conditions_lineTrace (x : Dirs) (tr : Trace) :
    conditions x (lineTrace tr) = conditions x tr := by
  induction tr generalizing x with
  | nil => rfl
  | cons e es ih => cases e <;> simp_all [lineTrace, conditions_cons, Event.effect]

theorem dataAtClockHigh_lineTrace (x : Dirs) (tr : Trace) :
    dataAtClockHigh x (lineTrace tr) = dataAtClockHigh x tr := by
  induction tr generalizing x with
  | nil => rfl
  | cons e es ih => cases e <;> simp_all [lineTrace, dataAtClockHigh, Event.effect]

/-! ### The bus phase -/

theorem phaseAtReset_eq_idle (pullsC pullsD : Bool) :
    phaseAtReset pullsC pullsD = .idle ↔ pullsC = false ∧ pullsD = false := by
  cases pullsC <;> cases pullsD <;> decide

@[simp] theorem phaseAfter_nil (p : Phase) : phaseAfter p [] = p := rfl

@[simp] theorem phaseAfter_append (p : Phase) (a b : List Condition) :
    phaseAfter p (a ++ b) = phaseAfter (phaseAfter p a) b := List.foldl_append ..

/-- The last condition decides, whatever the phase before. -/
@[simp] theorem phaseAfter_last (p : Phase) (a : List Condition) (c : Condition) :
    phaseAfter p (a ++ [c]) = c.phase := by
  rw [phaseAfter_append]; rfl

/-- Where Env pulls nothing, the conditions on the wires are the master-created ones. -/
@[simp] theorem wireConditions_unpulled (x : Dirs) (tr : Trace) :
    wireConditions x [] tr = conditions x tr := by
  cases tr <;> rfl

theorem wireConditions_cons (x : Dirs) (p : Bool × Bool) (ps : List (Bool × Bool)) (e : Event)
    (es : Trace) :
    wireConditions x (p :: ps) (e :: es)
      = (wireCondition p.1 p.2 x (e.effect x)).toList ++ wireConditions (e.effect x) ps es := rfl

/-- Conditions on the wires of a trace whose first part has its pulls given to its end. -/
theorem wireConditions_append (x : Dirs) {ps : List (Bool × Bool)} {a : Trace}
    (h : ps.length = a.length) (qs : List (Bool × Bool)) (b : Trace) :
    wireConditions x (ps ++ qs) (a ++ b)
      = wireConditions x ps a ++ wireConditions (replay x a) qs b := by
  induction a generalizing x ps with
  | nil => rw [List.length_eq_zero_iff.1 h]; rfl
  | cons e es ih =>
    cases ps with
    | nil => simp at h
    | cons p ps => simp [wireConditions_cons, ih _ (by simpa using h)]

/-! ### Micro-step lists -/

/-- The events of a micro-step list lead where its micro-steps lead. -/
theorem replay_microEvents (ms : List Micro) (vs : List Level) (x : Dirs)
    (h : vs.length = ms.countP Micro.isRead) :
    replay x (microEvents ms vs) = ms.foldl microDirs x := by
  induction ms generalizing vs x with
  | nil => cases vs <;> rfl
  | cons m ms ih =>
    cases m with
    | rd dst =>
      cases vs with
      | nil => simp [List.countP_cons, Micro.isRead] at h
      | cons v vs =>
        have h' : vs.length = ms.countP Micro.isRead := by
          simpa [List.countP_cons, Micro.isRead] using h
        simpa [microEvents, microDirs, Event.effect] using ih vs _ h'
    | rel l =>
      have h' : vs.length = ms.countP Micro.isRead := by
        simpa [List.countP_cons, Micro.isRead] using h
      simpa [microEvents, microDirs, Event.effect] using ih vs _ h'
    | low l =>
      have h' : vs.length = ms.countP Micro.isRead := by
        simpa [List.countP_cons, Micro.isRead] using h
      simpa [microEvents, microDirs, Event.effect] using ih vs _ h'
    | wait =>
      have h' : vs.length = ms.countP Micro.isRead := by
        simpa [List.countP_cons, Micro.isRead] using h
      simpa [microEvents, microDirs, Event.effect] using ih vs _ h'

/-- A micro-step's events lead to the directions it leaves. -/
theorem microStep_replay (slack : Slack) (m : Micro) (s : State) (x : Dirs)
    (h : replay x s.trace = s.dirs) :
    replay x (microStep slack m s).trace = (microStep slack m s).dirs := by
  obtain ⟨n, hn⟩ := microStep_trace slack m s
  rw [hn, microStep_dirs, ← replay_lineTrace]
  simp only [lineTrace_append, lineTrace_replicate_wait, List.append_nil, replay_append,
    replay_lineTrace, h]
  cases m <;> rfl

end Sys2Proof.Machine
end

