-- ==== Sys2Proof/Laws/Programs.lean ====
section
/-! SUPPORT. One lemma per micro-step list and question: the directions it leaves, the samples it takes,
the events it records, what it leaves in the sequencing state (spec/40_line_controller.md R106 to
R108; spec/41_protocol_engine.md R122, R123, R127, R130). -/

namespace Sys2Proof.Machine

/-! ### Bits on the data line -/

@[simp] theorem setD_isRead (x : Level) : (setD x).isRead = false := by cases x <;> rfl

@[simp] theorem setD_ne_wait (x : Level) : setD x ≠ .wait := by cases x <;> simp [setD]

theorem microDirs_setD (y : Dirs) (x : Level) :
    microDirs y (setD x) = ⟨y.c, if x then .rel else .low⟩ := by cases x <;> rfl

theorem microEvents_setD (x : Level) (ms : List Micro) (vs : List Level) :
    microEvents (setD x :: ms) vs = setDEvent x :: microEvents ms vs := by cases x <;> rfl

/-- Micro-steps that sample nothing leave the shift register and the sampled level alone. -/
theorem storeAll_append_of_no_read (ms ns : List Micro) (q : Running) (vs : List Level)
    (h : ms.countP Micro.isRead = 0) :
    storeAll q (ms ++ ns) vs = storeAll { q with pos := q.pos + ms.length } ns vs := by
  induction ms generalizing q with
  | nil => rfl
  | cons m ms ih =>
    cases m with
    | rd dst => simp [List.countP_cons, Micro.isRead] at h
    | rel l =>
      have h' : ms.countP Micro.isRead = 0 := by simpa [List.countP_cons, Micro.isRead] using h
      simp [storeAll, ih _ h', Nat.add_assoc, Nat.add_comm 1]
    | low l =>
      have h' : ms.countP Micro.isRead = 0 := by simpa [List.countP_cons, Micro.isRead] using h
      simp [storeAll, ih _ h', Nat.add_assoc, Nat.add_comm 1]
    | wait =>
      have h' : ms.countP Micro.isRead = 0 := by simpa [List.countP_cons, Micro.isRead] using h
      simp [storeAll, ih _ h', Nat.add_assoc, Nat.add_comm 1]

/-! ### Samples -/

theorem wrbProgram_reads (b : Byte) : (wrbProgram b).countP Micro.isRead = 1 := by
  simp [wrbProgram, bitIndices, wrbBit, wrbAck, List.countP_cons]

theorem rdbProgram_reads (k : Bool) : (rdbProgram k).countP Micro.isRead = 8 := by
  cases k <;> rfl

/-- The samples of each command (R57). -/
theorem program_reads {i : Instr} (h : WellFormed i) :
    (program i).countP Micro.isRead = sampleCount i := by
  cases i with
  | rel l => rfl
  | low l => rfl
  | rd l => cases l with
    | c => exact absurd h (by decide)
    | d => rfl
  | start => rfl
  | stop => rfl
  | wrb b => exact wrbProgram_reads b
  | rdb k => exact rdbProgram_reads k

/-! ### Directions (R133) -/

theorem startProgram_dirs (x : Dirs) : startProgram.foldl microDirs x = ⟨.low, .low⟩ := rfl

theorem stopProgram_dirs (x : Dirs) : stopProgram.foldl microDirs x = ⟨.rel, .rel⟩ := rfl

theorem wrbProgram_dirs (b : Byte) (x : Dirs) :
    (wrbProgram b).foldl microDirs x = ⟨.low, .low⟩ := by
  simp [wrbProgram, bitIndices, wrbBit, wrbAck, microDirs, Dirs.set]

theorem rdbProgram_dirs (k : Bool) (x : Dirs) :
    (rdbProgram k).foldl microDirs x = ⟨.low, .low⟩ := by
  simp [rdbProgram, bitIndices, rdbBit, rdbAck, microDirs, Dirs.set]

/-! ### Events -/

theorem wrbProgram_events (b : Byte) (v : Level) :
    microEvents (wrbProgram b) [v]
      = (bitsMsbFirst b).flatMap wrbBitEvents
        ++ [.rel .d, .rel .c, .wait, .rd v, .low .c, .wait, .low .d] := by
  simp [wrbProgram, bitIndices, wrbBit, wrbAck, microEvents, microEvents_setD, bitsMsbFirst,
    wrbBitEvents]

theorem rdbProgram_events (k : Bool) (s1 s2 s3 s4 s5 s6 s7 s8 : Level) :
    microEvents (rdbProgram k) [s1, s2, s3, s4, s5, s6, s7, s8]
      = .rel .d :: ([s1, s2, s3, s4, s5, s6, s7, s8].flatMap rdbBitEvents
        ++ [if k then .low .d else .rel .d, .rel .c, .wait, .low .c, .wait, .low .d]) := by
  cases k <;> rfl

/-- A data bit of `WRB` set while the clock is low creates no condition (R129(b)). -/
theorem conditions_wrbBit_of_clock_low (x : Level) (y : Dir) (tr : Trace) :
    conditions ⟨.low, y⟩ (wrbBitEvents x ++ tr)
      = conditions ⟨.low, if x then .rel else .low⟩ tr := by
  cases x <;> cases y <;> rfl

/-- Through the clock-high phase of a data bit of `WRB` the data line holds that bit (R126, R134). -/
theorem dataAtClockHigh_wrbBit (x : Level) (y : Dirs) (tr : Trace) :
    dataAtClockHigh y (wrbBitEvents x ++ tr)
      = (if x then .rel else .low)
        :: dataAtClockHigh ⟨.low, if x then .rel else .low⟩ tr := by
  cases x <;> rfl

/-! ### The sequencing state at the end -/

/-- `WRB` ends with its one sample as the ACK level (R127). -/
theorem wrbProgram_sample (b : Byte) (q : Running) (v : Level) :
    (storeAll q (wrbProgram b) [v]).sample = v := by
  have h : (bitIndices.flatMap (wrbBit b)).countP Micro.isRead = 0 := by
    simp [bitIndices, wrbBit]
  rw [wrbProgram, storeAll_append_of_no_read _ _ _ _ h]
  rfl

/-- `RDB` ends with its eight samples in the shift register, the first in bit 7 (R130). -/
theorem rdbProgram_shift (k : Bool) (q : Running) (s1 s2 s3 s4 s5 s6 s7 s8 : Level) :
    (storeAll q (rdbProgram k) [s1, s2, s3, s4, s5, s6, s7, s8]).shift
      = setBit (setBit (setBit (setBit (setBit (setBit (setBit (setBit q.shift 7 s1) 6 s2) 5 s3) 4 s4)
          3 s5) 2 s6) 1 s7) 0 s8 := by
  cases k <;> rfl

end Sys2Proof.Machine
end

