-- ==== Sys2Proof/Laws/Safety.lean ====
section
/-! SUPPORT. When a run has ended, in the words of spec/10_state.md R36, and what its verdict then looks
at. -/

namespace Sys2Proof.Machine

/-- What is no command is a reset. -/
theorem Input.isCommand_eq_false (x : Input) : x.isCommand = false ↔ x = .reset := by
  cases x <;> simp [Input.isCommand]

/-- A run has ended exactly when only resets are left among the inputs and the block is not busy. -/
theorem State.runEnded_iff (s : State) :
    s.runEnded = true ↔ (∀ x ∈ s.inputs, x = .reset) ∧ s.busy = false := by
  simp [State.runEnded, Input.isCommand_eq_false]

end Sys2Proof.Machine
end

