-- ==== Sys2Proof/Laws/Step.lean ====
section
/-! SUPPORT. What one step of the machine can do, said once, and what one micro-step of a running command
does to its position (spec/60_exceptions.md R172; spec/10_state.md R28). -/

namespace Sys2Proof.Machine

/-! ### Micro-steps of a running command -/

@[simp] theorem microStep_busy (slack : Slack) (m : Micro) (s : State) :
    (microStep slack m s).busy = s.busy := by
  simp [State.busy, microStep_seq]

theorem microStep_lineTrace (slack : Slack) (m : Micro) (s : State) :
    lineTrace (microStep slack m s).trace
      = lineTrace s.trace ++ lineTrace (microEvents [m] [s.sampleLevel]) := by
  obtain ⟨n, hn⟩ := microStep_trace slack m s
  simp [hn]

@[simp] theorem storeAll_one_pos (q : Running) (m : Micro) (v : Level) :
    (storeAll q [m] [v]).pos = q.pos + 1 := by
  cases m <;> simp [storeAll]

theorem storeAll_pos (ms : List Micro) (q : Running) (vs : List Level)
    (h : vs.length = ms.countP Micro.isRead) :
    (storeAll q ms vs).pos = q.pos + ms.length := by
  induction ms generalizing q vs with
  | nil => rfl
  | cons m ms ih =>
    cases m with
    | rd dst =>
      cases vs with
      | nil => simp [List.countP_cons] at h
      | cons v vs =>
        rw [storeAll, ih _ _ (by simpa [List.countP_cons] using h)]
        simp [Nat.add_assoc, Nat.add_comm 1]
    | rel l =>
      rw [storeAll, ih _ _ (by simpa [List.countP_cons] using h)]
      simp [Nat.add_assoc, Nat.add_comm 1]
    | low l =>
      rw [storeAll, ih _ _ (by simpa [List.countP_cons] using h)]
      simp [Nat.add_assoc, Nat.add_comm 1]
    | wait =>
      rw [storeAll, ih _ _ (by simpa [List.countP_cons] using h)]
      simp [Nat.add_assoc, Nat.add_comm 1]

/-- What one micro-step does to the sequencing state, in the words the statements use. -/
theorem storeAll_one (q : Running) (m : Micro) (v : Level) : storeAll q [m] [v] = q.after m v := by
  cases m <;> simp [storeAll, Running.after]

/-- A busy block with a micro-step left does it, and completes after the last. -/
theorem advance_running (slack : Slack) {s : State} {q : Running} {m : Micro}
    (hq : s.seq = some q) (hm : (program q.instr)[q.pos]? = some m) :
    advance slack s
      = if (program q.instr).length ≤ q.pos + 1
        then complete (microStep (delaysOf slack q.instr) m s)
        else microStep (delaysOf slack q.instr) m s := by
  have hs := microStep_seq (delaysOf slack q.instr) m s
  simp [advance, hq, hm, completeAtEnd, State.atEnd, hs]

@[simp] theorem complete_trace (s : State) : (complete s).trace = s.trace := by
  unfold complete; split <;> rfl
@[simp] theorem complete_dirs (s : State) : (complete s).dirs = s.dirs := by
  unfold complete; split <;> rfl
@[simp] theorem complete_fault (s : State) : (complete s).fault = s.fault := by
  unfold complete; split <;> rfl
@[simp] theorem complete_inputs (s : State) : (complete s).inputs = s.inputs := by
  unfold complete; split <;> rfl
@[simp] theorem complete_answers (s : State) : (complete s).answers = s.answers := by
  unfold complete; split <;> rfl
@[simp] theorem complete_earlier (s : State) : (complete s).earlier = s.earlier := by
  unfold complete; split <;> rfl

/-- A property every micro-step of the sequencer keeps holds after any number of them. -/
theorem advanceMany_keeps (P : State → Prop) (slack : Slack)
    (h : ∀ s, P s → P (advance slack s)) (k : Nat) (s : State) (hs : P s) :
    P (advanceMany slack k s) := by
  induction k generalizing s with
  | zero => exact hs
  | succ k ih => exact ih _ (h s hs)

theorem advanceMany_succ (slack : Slack) (k : Nat) (s : State) :
    advanceMany slack (k + 1) s = advance slack (advanceMany slack k s) := by
  induction k generalizing s with
  | zero => rfl
  | succ k ih => rw [advanceMany, ih, advanceMany]

/-! ### The step -/

/-- Everything a step can do. -/
theorem step_cases {s t : State} (h : step s = .next t) :
    (∃ r, s.inputs = .reset :: r ∧ t = resetBlock s.dropInput) ∨
    (s.rst = false ∧ s.busy = true ∧ t = advance Config.extraWaits s) ∨
    (s.inputs = [] ∧ s.busy = false ∧ t = idle s) ∨
    (∃ w r i, s.inputs = .command w :: r ∧ s.busy = false ∧ decode w = .ok i ∧
      exec i s.dropInput = .next t) ∨
    (∃ w k r i, s.inputs = .partway w k :: r ∧ s.busy = false ∧ decode w = .ok i ∧
      t = beginCommand Config.extraWaits i k s.dropInput) ∨
    (∃ w e, s.cmd = some w ∧ s.busy = false ∧ decode w = .illegal e ∧
      t = raiseIllegal w s.dropInput) := by
  rcases fetch_cases s with ⟨r, hi, hf⟩ | ⟨hr, hb, hf⟩ | ⟨hi, hb, hf⟩ |
    ⟨w, r, i, hi, hb, hd, hf⟩ | ⟨w, k, r, i, hi, hb, hd, hf⟩ | ⟨w, e, hi, hb, hd, hf⟩ <;>
    simp only [step, hf] at h
  · injection h with h; exact .inl ⟨r, hi, h.symm⟩
  · injection h with h; exact .inr (.inl ⟨hr, hb, h.symm⟩)
  · injection h with h; exact .inr (.inr (.inl ⟨hi, hb, h.symm⟩))
  · exact .inr (.inr (.inr (.inl ⟨w, r, i, hi, hb, hd, h⟩)))
  · injection h with h
    exact .inr (.inr (.inr (.inr (.inl ⟨w, k, r, i, hi, hb, hd, h.symm⟩))))
  · injection h with h
    exact .inr (.inr (.inr (.inr (.inr ⟨w, e, hi, hb, hd, h.symm⟩))))

/-- A well-formed command runs its micro-step list to its completion. -/
theorem exec_eq_runCommand {i : Instr} (s : State) (h : WellFormed i) :
    exec i s = .next (runCommand Config.extraWaits i (program i) s) := by
  cases i with
  | rel l => rfl
  | low l => rfl
  | rd l =>
    cases l with
    | c => exact absurd h (by decide)
    | d => rfl
  | start => rfl
  | stop => rfl
  | wrb b => rfl
  | rdb k => rfl

end Sys2Proof.Machine
end

