-- ==== Sys2Proof/Tests/Slice0.lean ====
section
/-! SUPPORT. Tests. Expected results are those of spec/95_test_vectors.md (the section is named at each
test) or written out by hand from the rule named; and a witness for every statement's hypotheses. -/

open Sys2Proof Sys2Proof.Machine

namespace Sys2Proof.Tests

/-! ### Helpers -/

/-- The reset state with other directions and with answers Env is to give. -/
def busAt (c d : Dir) (answers : List Level) : State :=
  { State.reset with dirs := ⟨c, d⟩, answers := answers }

/-- The directions and the responses after an outcome. -/
def shown (o : Host.Outcome State Fault Refusal) : Option (Dirs × List Response) :=
  match o with
  | .next t => some (t.dirs, t.responses)
  | .fault _ => none
  | .refused _ => none

/-- The trace of one command with no delays added, from given directions and answers. -/
def traceOf (i : Instr) (c d : Dir) (answers : List Level) : Trace :=
  (runCommand noDelays i (program i) (busAt c d answers)).trace

/-- The conditions of that trace. -/
def conditionsOf (i : Instr) (c d : Dir) (answers : List Level) : List Condition :=
  conditions ⟨c, d⟩ (traceOf i c d answers)

/-- A trace from the spec's tokens: `rC rD lC lD s0 s1 w`, in order. -/
abbrev rC : Event := .rel .c
abbrev rD : Event := .rel .d
abbrev lC : Event := .low .c
abbrev lD : Event := .low .d
abbrev s0 : Event := .rd false
abbrev s1 : Event := .rd true
abbrev w : Event := .wait

/-- A state in the middle of `START`, its first micro-step done, with `STOP` offered. -/
def midStart : State :=
  { State.reset with
    seq := some { instr := .start, pos := 1, shift := 0, sample := false }
    inputs := [.command 0x5000] }

/-! ### Well-formedness (R76(f)) -/

theorem test_rd_of_clock_is_ill_formed : ¬ WellFormed (.rd .c) := by decide
theorem test_rd_of_data_is_well_formed : WellFormed (.rd .d) := by decide

/-! ### The decoder (95 section 2.1) -/

theorem test_decode_rel : decode 0x1000 = .ok (.rel .c) ∧ decode 0x1100 = .ok (.rel .d) := by decide
theorem test_decode_low : decode 0x2000 = .ok (.low .c) ∧ decode 0x2100 = .ok (.low .d) := by decide
theorem test_decode_rd : decode 0b0011000100000000 = .ok (.rd .d) := by decide
theorem test_decode_start : decode 0b0100000000000000 = .ok .start := by decide
theorem test_decode_stop : decode 0b0101000000000000 = .ok .stop := by decide
theorem test_decode_wrb : decode 0b0110000011010000 = .ok (.wrb 0xD0) ∧
    decode 0x6000 = .ok (.wrb 0x00) ∧ decode 0x60FF = .ok (.wrb 0xFF) := by decide
theorem test_decode_rdb : decode 0b0111000100000000 = .ok (.rdb true) ∧
    decode 0x7000 = .ok (.rdb false) := by decide
theorem test_decode_illegal :
    decode 0x3000 = .illegal .readClock ∧ decode 0x4001 = .illegal .formatN ∧
    decode 0x4100 = .illegal .formatN ∧ decode 0x5080 = .illegal .formatN ∧
    decode 0x6100 = .illegal .formatB ∧ decode 0x7001 = .illegal .formatLK ∧
    decode 0x1101 = .illegal .formatLK ∧ decode 0x1200 = .illegal .reservedZ ∧
    decode 0x0000 = .illegal .opcode ∧ decode 0x8000 = .illegal .opcode ∧
    decode 0xFFFF = .illegal .reservedZ := by decide
theorem test_decodeTableWord : decodeTableWord 16 0x60A5 = some (.wrb 0xA5) ∧
    decodeTableWord 16 0x3000 = none := by decide

/-! ### Line commands (95 section 2.3) -/

theorem test_rel_sda_from_HL : shown (exec (.rel .d) (busAt .rel .low []))
    = some (⟨.rel, .rel⟩, [.none]) ∧ conditionsOf (.rel .d) .rel .low [] = [.stop] := by decide
theorem test_rel_scl_from_LH : shown (exec (.rel .c) (busAt .low .rel []))
    = some (⟨.rel, .rel⟩, [.none]) ∧ conditionsOf (.rel .c) .low .rel [] = [] := by decide
theorem test_low_sda_from_HH : shown (exec (.low .d) (busAt .rel .rel []))
    = some (⟨.rel, .low⟩, [.none]) ∧ conditionsOf (.low .d) .rel .rel [] = [.start] := by decide
theorem test_low_scl_from_HL : shown (exec (.low .c) (busAt .rel .low []))
    = some (⟨.low, .low⟩, [.none]) ∧ traceOf (.low .c) .rel .low [] = [.issue 0x2000, lC] := by decide
theorem test_rd_from_HL : shown (exec (.rd .d) (busAt .rel .low [false]))
    = some (⟨.rel, .rel⟩, [.level false]) ∧ conditionsOf (.rd .d) .rel .low [false] = [.stop] := by
  decide
theorem test_rd_from_LH : shown (exec (.rd .d) (busAt .low .rel [true]))
    = some (⟨.low, .rel⟩, [.level true]) ∧ traceOf (.rd .d) .low .rel [true] = [.issue 0x3100, s1] := by
  decide

/-! ### START and STOP (95 section 2.4) -/

theorem test_start_from_HL : shown (exec .start (busAt .rel .low []))
    = some (⟨.low, .low⟩, [.none]) ∧ conditionsOf .start .rel .low [] = [.stop, .start] := by decide
theorem test_start_trace : traceOf .start .rel .rel []
    = [.issue 0x4000, rD, rC, w, lD, w, lC, w] := by decide
theorem test_start_condition_events :
    conditionEvents ⟨.rel, .low⟩ [rD, rC, w, lD, w, lC, w] = [(rD, .stop), (lD, .start)] := by decide
theorem test_stop_from_HH : shown (exec .stop (busAt .rel .rel []))
    = some (⟨.rel, .rel⟩, [.none]) ∧ conditionsOf .stop .rel .rel [] = [.start, .stop] := by decide
theorem test_stop_trace : traceOf .stop .low .low [] = [.issue 0x5000, lD, rC, w, rD, w] := by decide

/-! ### WRB and RDB (95 sections 2.5, 2.6) -/

/-- V-WRB-1, the full trace. -/
theorem test_wrb_D0_trace : traceOf (.wrb 0xD0) .low .low [false] =
    [.issue 0x60D0,
     rD, w, rC, w, lC, w, rD, w, rC, w, lC, w, lD, w, rC, w, lC, w, rD, w, rC, w, lC, w,
     lD, w, rC, w, lC, w, lD, w, rC, w, lC, w, lD, w, rC, w, lC, w, lD, w, rC, w, lC, w,
     rD, rC, w, s0, lC, w, lD] := by decide +kernel
/-- V-WRB-6: from `[H L]` the first bit creates a STOP; not acknowledged. -/
theorem test_wrb_A5_from_HL : shown (exec (.wrb 0xA5) (busAt .rel .low [true]))
    = some (⟨.low, .low⟩, [.ack false]) ∧ conditionsOf (.wrb 0xA5) .rel .low [true] = [.stop] := by
  decide +kernel
/-- V-RDB-1, the full trace. -/
theorem test_rdb_nack_68_trace :
    traceOf (.rdb false) .low .low [false, true, true, false, true, false, false, false] =
    [.issue 0x7000, rD,
     rC, w, s0, lC, w, rC, w, s1, lC, w, rC, w, s1, lC, w, rC, w, s0, lC, w,
     rC, w, s1, lC, w, rC, w, s0, lC, w, rC, w, s0, lC, w, rC, w, s0, lC, w,
     rD, rC, w, lC, w, lD] := by decide +kernel
/-- V-RDB-5: ACK, from `[H L]`, `byte(0x3C)`. -/
theorem test_rdb_ack_3C :
    shown (exec (.rdb true) (busAt .rel .low [false, false, true, true, true, true, false, false]))
      = some (⟨.low, .low⟩, [.byte 0x3C]) ∧
    conditionsOf (.rdb true) .rel .low [false, false, true, true, true, true, false, false]
      = [.stop] := by decide +kernel

/-! ### Illegal words, the response port (95 sections 2.2, 2.7) -/

theorem test_illegal_word_step :
    shown (step (State.withFetchWord (busAt .low .low []) 16 0x3000))
      = some (⟨.low, .low⟩, [.illegal .illegalCommand 0x3000]) := by decide
theorem test_illegal_rsp : rspWord (opField 0x0000) (.illegal .illegalCommand 0x0000) = 0x0201 ∧
    rspWord (opField 0x3000) (.illegal .illegalCommand 0x3000) = 0x3201 ∧
    rspWord (opField 0xFFFF) (.illegal .illegalCommand 0xFFFF) = 0xF201 := by decide
theorem test_rsp_words : rspWord (opOf (.wrb 0)) (.ack true) = 0x6100 ∧
    rspWord (opOf (.wrb 0)) (.ack false) = 0x6000 ∧ rspWord (opOf (.rdb true)) (.byte 0x68) = 0x7068 ∧
    rspWord (opOf (.rd .d)) (.level true) = 0x3100 ∧ rspWord (opOf (.rd .d)) (.level false) = 0x3000 ∧
    rspWord (opOf .start) .none = 0x4000 ∧ rspWord (opOf .stop) .none = 0x5000 := by decide

/-! ### Bytes and host values (95 section 2.8) -/

theorem test_assembleByte :
    assembleByte [false, true, true, false, true, false, false, false] = 0x68 ∧
    assembleByte [true, false, false, false, false, false, false, false] = 0x80 ∧
    assembleByte [false, false, false, false, false, false, false, true] = 0x01 := by decide
theorem test_combine : combine 0x40 0x00 = 16384 ∧ combine 0xC0 0x00 = -16384 ∧
    combine 0x7F 0xFF = 32767 ∧ combine 0x80 0x00 = -32768 ∧ combine 0xFF 0xFF = -1 ∧
    combine 0x20 0x00 = 8192 := by decide

/-! ### Steps -/

/-- The first step after reset runs the word offered (R184): P1's `START`. -/
theorem test_step_runs_start : shown (step (State.withFetchWord State.reset 16 0x4000))
    = some (⟨.low, .low⟩, [.none]) := by decide
/-- A busy block does one micro-step and gives no response (R172). -/
theorem test_step_busy : shown (step midStart) = some (⟨.rel, .rel⟩, []) := by decide
/-- Reset in the middle of a command (R180). -/
theorem test_step_reset : shown (step { midStart with dirs := ⟨.low, .low⟩, inputs := [.reset] })
    = some (⟨.rel, .rel⟩, []) := by decide
/-- Bit indices (R28): the first micro-step of `WRB` sends bit 7, the fourth group bit 4. -/
theorem test_bitIndex :
    Running.bitIndex { instr := .wrb 0, pos := 0, shift := 0, sample := false } = some 7 ∧
    Running.bitIndex { instr := .wrb 0, pos := 18, shift := 0, sample := false } = some 4 ∧
    Running.bitIndex { instr := .rdb true, pos := 3, shift := 0, sample := false } = some 7 ∧
    Running.bitIndex { instr := .rdb true, pos := 41, shift := 0, sample := false } = none := by decide

/-! ### Assembler and pseudo-instructions (R79 to R83, 95 section 3) -/

theorem test_assemble : assembleLine ['r', 'e', 'l', ' ', 'S', 'D', 'A'] = .command (.rel .d) ∧
    assembleLine ['W', 'R', 'B', ' ', '0', 'x', 'D', '0', ' ', ';', ' ', 'w'] = .command (.wrb 0xD0) ∧
    assembleLine ['R', 'D', ' ', 'S', 'C', 'L'] = .error ∧
    assembleLine ['W', 'R', 'B', ' ', '2', '5', '6'] = .error ∧
    assembleLine ['R', 'D', 'B', ' ', 'N', 'A', 'C', 'K'] = .command (.rdb false) ∧
    assembleLine [' ', ';', 'x'] = .blank := by decide
theorem test_wake_words : wake.map encode = [0x4000, 0x60D0, 0x606B, 0x6000, 0x5000] := by decide
theorem test_temp_words : temp.map (fun cmds => cmds.map encode)
    = some [0x4000, 0x60D0, 0x6041, 0x5000, 0x4000, 0x60D1, 0x7100, 0x7000, 0x5000] := by decide
theorem test_ident_framed : hostFramed .outside ident = true := by decide
theorem test_stop_alone_is_not_framed : hostFramed .outside [.stop] = false := by decide

/-! ### Counts (R195) -/

theorem test_counts : microCount .start = 7 ∧ waitCount .start = 3 ∧ microCount .stop = 5 ∧
    waitCount .stop = 2 ∧ microCount (.wrb 0x5A) = 55 ∧ waitCount (.wrb 0x5A) = 26 ∧
    microCount (.rdb true) = 47 ∧ waitCount (.rdb true) = 18 := by decide

/-! ### Witnesses: the hypotheses of the statements can be met -/

theorem witness_DecodeOfEncode : WellFormed (.wrb 0xA5) := by decide
theorem witness_EncodeOfDecode : decode 0x7100 = .ok (.rdb true) := by decide
theorem witness_OpcodeRows : (∃ r ∈ opcodeTable, r.selects 0x60FF = true) := by decide
/-- One word of each class (a) to (f) of R76, offered to an idle block. -/
theorem witness_IllegalClasses :
    [0x0000#16, 0x8000#16, 0x1200#16, 0x4001#16, 0x5100#16, 0x7001#16, 0x6100#16, 0x3000#16].all
      illegalWord = true ∧
    (State.withFetchWord State.reset 16 0x0000).cmd = some 0x0000 ∧
    ({ State.reset with inputs := [.partway 0x0000 1] } : State).cmd = some 0x0000 ∧
    (State.withFetchWord State.reset 16 0x0000).busy = false := by decide
theorem witness_RelLowRd_illegal : (opField 0x1101 = 0x1 ∧ (0x1101#16 ≠ 0x1000 ∧ 0x1101#16 ≠ 0x1100)) ∧
    (opField 0x2200 = 0x2 ∧ (0x2200#16 ≠ 0x2000 ∧ 0x2200#16 ≠ 0x2100)) ∧
    (opField 0x3000 = 0x3 ∧ 0x3000#16 ≠ 0x3100) := by decide
theorem witness_ReadMicroStep : (busAt .low .low [true]).answers = [true] ∧
    State.reset.answers = [] := by decide
theorem witness_StartStop_prestates : (busAt .rel .low []).dirs = ⟨.rel, .low⟩ ∧
    (busAt .low .low []).dirs ≠ ⟨.rel, .low⟩ ∧ (busAt .rel .rel []).dirs = ⟨.rel, .rel⟩ ∧
    (busAt .low .low []).dirs ≠ ⟨.rel, .rel⟩ := by decide
/-- Every command has a next state and new events from every state (ConditionsOfWrb,
ConditionsOfRdb), at `[L L]`, `[H H]` and `[H L]` among others. -/
theorem witness_Conditions {i : Instr} (c d : Dir) (h : WellFormed i) :
    ∃ t evs, exec i (busAt c d []) = .next t ∧ t.trace = (busAt c d []).trace ++ evs := by
  obtain ⟨evs, he, -, -⟩ := runCommand_trace Config.extraWaits i (program i) (busAt c d [])
  exact ⟨_, _, exec_eq_runCommand _ h, he⟩
theorem witness_Conditions_instances : WellFormed (.wrb 0x7F) ∧ WellFormed (.wrb 0x80) ∧ WellFormed (.rdb true) := by decide
theorem witness_AckIff : (busAt .low .low [false]).answers = false :: [] ∧
    (busAt .low .low [true, false]).answers = true :: [false] := by decide
/-- LoopBackReturnsTheByte: all its hypotheses together, for every byte. -/
theorem witness_LoopBack (b : Byte) : ∃ (t u : State) (evs : Trace),
    (busAt .low .low [false]).dirs.c = .low ∧ exec (.wrb b) (busAt .low .low [false]) = .next t ∧
    t.trace = (busAt .low .low [false]).trace ++ evs ∧
    u.answers = ((dataAtClockHigh (busAt .low .low [false]).dirs evs).take 8).map levelOfDir ++ [] := by
  obtain ⟨evs, he, -, -⟩ :=
    runCommand_trace Config.extraWaits (.wrb b) (wrbProgram b) (busAt .low .low [false])
  exact ⟨_, busAt .low .low _, _, rfl, rfl, he, (List.append_nil _).symm⟩
theorem witness_ByteIsTheSamples :
    (busAt .low .low [true, false, true, false, false, true, false, true, true]).answers
      = [true, false, true, false, false, true, false, true] ++ [true] := by decide
theorem witness_StuckLine : (busAt .low .low (List.replicate 9 false)).answers
      = List.replicate 9 false ++ [] ∧
    (busAt .low .low (List.replicate 9 true)).answers = List.replicate 9 true ++ [] := by decide
theorem witness_FrameOfLineCommands :
    (Instr.rel .c = .rel .c ∧ Dir.rel = .rel) ∧ (Instr.low .d = .low .d ∧ Dir.low = .low) ∧
    (Instr.rd .d = .rd .d ∧ Line.d = .d ∧ Dir.rel = .rel) ∧ Line.c ≠ Line.d := by decide
theorem witness_Commands_wellFormed : WellFormed (.rel .c) ∧ WellFormed (.low .d) ∧
    WellFormed (.rd .d) ∧ WellFormed .start ∧ WellFormed .stop ∧ WellFormed (.wrb 0) ∧
    WellFormed (.rdb false) := by decide
theorem witness_ExtraDelays : sampleCount (.rdb true) ≤ (busAt .low .low (List.replicate 8 true)).answers.length ∧
    sampleCount .start ≤ State.reset.answers.length := by decide
theorem witness_StepRuns : (State.withFetchWord State.reset 16 0x60A5).busy = false ∧
    (State.withFetchWord State.reset 16 0x60A5).inputs = [.command 0x60A5] ∧
    decode 0x60A5 = .ok (.wrb 0xA5) := by decide
theorem witness_CommandIsItsMicroSteps : WellFormed (.wrb 1) ∧ 54 < microCount (.wrb 1) := by decide
theorem witness_BusyBlock :
    midStart.seq = some { instr := .start, pos := 1, shift := 0, sample := false } ∧
    midStart.rst = false ∧ (program .start)[1]? = some (.rel .c) ∧
    midStart.inputs = [.command 0x5000] := by decide
/-- The same at the last micro-step of a command, at a sample, and in a line command. -/
theorem witness_BusyBlock_cases :
    (program .start)[6]? = some .wait ∧ 6 + 1 = microCount .start ∧
    (program (.rdb true))[3]? = some (.rd (.bit 7)) ∧ 3 + 1 < microCount (.rdb true) ∧
    (program (.rd .d))[0]? = some (.rd .level) ∧ 0 + 1 = microCount (.rd .d) := by decide
/-- The sample of a busy `RDB` at bit 7 is stored, used up, and the position moves on. -/
theorem test_busy_sample :
    (match step { busAt .rel .rel [true, false] with
        seq := some { instr := .rdb true, pos := 3, shift := 0, sample := false } } with
      | .next t => some (t.seq, t.answers)
      | .fault _ => none
      | .refused _ => none)
    = some (some { instr := .rdb true, pos := 4, shift := 0x80, sample := false }, [false]) := by decide
theorem witness_Pulse : State.reset.SequencerSound ∧ midStart.SequencerSound :=
  ⟨(fun _ h => by cases h), (fun q h => by injection h with h; subst h; decide)⟩
/-- A step after which `rsp_valid` is 1. -/
theorem witness_Pulse_up : ∃ t, step (State.withFetchWord State.reset 16 0x4000) = .next t ∧
    t.rspValid = true := ⟨_, rfl, by decide⟩
theorem witness_RspRead : State.reset.rspValid = false ∧ State.reset.inputs = [] ∧
    State.reset.busy = false := by decide
theorem witness_IllegalEffect : illegalWord 0xFFFF = true ∧
    ({ State.reset with fault := some ⟨.illegalCommand, 0xFFFF⟩ } : State).fault
      = some ⟨.illegalCommand, 0xFFFF⟩ ∧
    (State.withFetchWord State.reset 16 0xFFFF).cmd = some 0xFFFF ∧
    (State.withFetchWord State.reset 16 0xFFFF).busy = false ∧
    ({ State.reset with inputs := [.partway 0xFFFF 3] } : State).cmd = some 0xFFFF ∧
    ({ State.reset with inputs := [.partway 0xFFFF 3] } : State).busy = false := by decide
theorem witness_Sticky : ({ State.reset with fault := some ⟨.illegalCommand, 0⟩ } : State).fault.isSome = true ∧
    ({ State.reset with fault := some ⟨.illegalCommand, 0⟩ } : State).rst = false := by decide
theorem witness_Verdict : verdict { State.reset with fault := some ⟨.illegalCommand, 0x8000⟩ }
      = .fault (.illegalCommand 0x8000) ∧
    verdict State.reset = .next ⟨⟨.rel, .rel⟩, [], [], none⟩ := ⟨rfl, rfl⟩
/-- R36: a reset to come keeps no run from having ended; a command to come, or a busy block, does. -/
theorem test_run_ended : ({ State.reset with inputs := [.reset] } : State).runEnded = true ∧
    ({ State.reset with inputs := [.reset, .command 0x4000] } : State).runEnded = false ∧
    ({ State.reset with inputs := [.partway 0x4000 1] } : State).runEnded = false ∧
    ({ midStart with inputs := [] } : State).runEnded = false := by decide
theorem witness_Verdict_resets :
    (∀ x ∈ ({ State.reset with inputs := [.reset] } : State).inputs, x = .reset) ∧
    (∃ x ∈ midStart.inputs, x ≠ .reset) ∧ midStart.busy = true := by decide
theorem witness_Reset : ({ midStart with inputs := [.reset, .command 0x4000] } : State).inputs
    = .reset :: [.command 0x4000] ∧ decode 0x4000 = .ok .start := by decide
theorem witness_ResetAbandons :
    ({ State.reset with inputs := [.partway 0x60D0 54, .reset] } : State).inputs
      = .partway 0x60D0 54 :: .reset :: [] ∧
    ({ State.reset with inputs := [.partway 0x60D0 54, .reset] } : State).busy = false ∧
    decode 0x60D0 = .ok (.wrb 0xD0) ∧ 54 < microCount (.wrb 0xD0) := by decide
theorem witness_Wire : State.reset.dirs.get .d = .rel ∧ (busAt .low .rel []).dirs.get .c = .low := by
  decide
/-- R181: a line held low at reset, and the phase on the wires of a START a slave hides (R190). -/
theorem test_phase_after_reset : busPhase false false [] = .idle ∧ busPhase false true [] = .busy ∧
    busPhaseOnWires false false [(false, true)] [lD] = .idle ∧
    busPhaseOnWires false false [(false, false)] [lD] = .busy := by decide
theorem witness_PhaseOnTheWires : [(false, true)].length = [lD].length := by decide
theorem witness_Invariants : State.reset.TraceLeadsToDirs ∧ State.reset.BooksBalance ∧
    State.reset.MarkSound ∧ ∃ t, step State.reset = .next t :=
  ⟨rfl, ⟨rfl, rfl⟩, ⟨rfl, (fun _ h => by cases h)⟩, ⟨_, rfl⟩⟩

end Sys2Proof.Tests
end

section
/-! PROOFS. What is driven on a line, what the host can read and what the bus phase is, each said once of
the model's own functions; then the reset values (R37) and the line drivers (R23). -/

namespace Sys2Proof.Machine

/-! ### The line drivers (R22, R23) -/

@[simp] theorem padDrive_low : padDrive .low = some padOutput := rfl
@[simp] theorem padDrive_rel : padDrive .rel = none := rfl

/-- An enabled driver is a `LOW` direction: the value beside it is always the fixed one. -/
theorem padDrive_eq_some_iff (x : Dir) (v : Level) :
    padDrive x = some v ↔ x = .low ∧ v = padOutput := by
  cases x with
  | low => simp [eq_comm]
  | rel => simp

theorem padDrive_eq_none_iff (x : Dir) : padDrive x = none ↔ x = .rel := by
  cases x with
  | low => simp
  | rel => simp

/-! ### The response port (R32, R37) -/

theorem readRsp_of_rspValid_false {s : State} (h : s.rspValid = false) :
    readRsp s = .refused .rspOutsidePulse := by
  have hrsp : s.rsp = none := by simpa [State.rspValid] using h
  simp [readRsp, hrsp]

/-! ### The bus phase before any event (R181) -/

@[simp] theorem busPhase_nil (pullsC pullsD : Bool) :
    busPhase pullsC pullsD [] = phaseAtReset pullsC pullsD := rfl

theorem busPhase_nil_eq_idle (pullsC pullsD : Bool) :
    busPhase pullsC pullsD [] = .idle ↔ pullsC = false ∧ pullsD = false := by
  rw [busPhase_nil, phaseAtReset_eq_idle]

/-! ### The obligations -/

/-- Settles O43: the fields and the ports are read off the reset state; the phase is that of the empty
trace on an unpulled bus, and `rsp` is refused since `rsp_valid` is 0. -/
theorem resetValues : Obligations.ResetValues := by
  unfold Obligations.ResetValues
  have hphase : busPhase false false State.reset.trace = .idle :=
    (busPhase_nil_eq_idle false false).mpr ⟨rfl, rfl⟩
  have hrsp : readRsp State.reset = .refused .rspOutsidePulse := readRsp_of_rspValid_false rfl
  exact ⟨rfl, rfl, rfl, rfl, rfl, rfl, rfl, rfl, hphase, rfl, rfl, hrsp⟩

/-- Settles O47: what a driver puts on its line is always `padOutput`, which is 0. -/
theorem lineIsNeverDrivenHigh : Obligations.LineIsNeverDrivenHigh := by
  unfold Obligations.LineIsNeverDrivenHigh
  refine ⟨rfl, fun x => ⟨fun hhigh => ?_, ?_, padDrive_eq_none_iff x⟩⟩
  · obtain ⟨-, hone⟩ := (padDrive_eq_some_iff x true).mp hhigh
    exact absurd hone (by decide)
  · simp [padDrive_eq_some_iff]

end Sys2Proof.Machine
end

section
/-! PROOFS. The host's combination of two bytes (R54): a signed high byte above an unsigned low byte. -/

namespace Sys2Proof.Machine

/-- The word built by shift and or is the high byte written before the low byte. -/
theorem shiftLeft_or_eq_append_bytes (hi lo : Byte) :
    hi.zeroExtend 16 <<< 8 ||| lo.zeroExtend 16 = (hi ++ lo : Word) := by
  rw [BitVec.append_def, BitVec.shiftLeftZeroExtend_eq, BitVec.setWidth'_eq]

theorem combine_eq_toInt_append (hi lo : Byte) : combine hi lo = (hi ++ lo : Word).toInt := by
  rw [combine, shiftLeft_or_eq_append_bytes]

/-- Only the high byte carries the sign. -/
theorem combine_eq_toInt_hi_add_toNat_lo (hi lo : Byte) :
    combine hi lo = 256 * hi.toInt + lo.toNat := by
  rw [combine_eq_toInt_append, BitVec.toInt_append]
  simp

theorem toInt_byte_eq_toNat_sub (b : Byte) :
    b.toInt = (b.toNat : Int) - (if 0x80 ≤ b.toNat then 256 else 0) := by
  rw [BitVec.toInt_eq_toNat_cond]
  split <;> split <;> omega

/-- Settles O59: the combination is the signed high byte times 256 plus the low byte, and the 256 that a
negative high byte is short of its unsigned value becomes 65536. -/
theorem combinationIsSignedBigEndian : Obligations.CombinationIsSignedBigEndian := by
  unfold Obligations.CombinationIsSignedBigEndian
  intro hi lo
  refine ⟨?_, combine_eq_toInt_append hi lo⟩
  rw [combine_eq_toInt_hi_add_toNat_lo, toInt_byte_eq_toNat_sub]
  split <;> omega

end Sys2Proof.Machine
end

section
/-! PROOFS. The illegal words (R76): the classes against the decoder, and the step that meets one of them
in either form of an offer (R162). -/

namespace Sys2Proof.Machine

/-! ### The classes and the decoder (R76, R77) -/

/-- An arm of the decoder that asks one condition of the word's operand bits rejects it when the
condition fails. -/
theorem ite_ok_eq_illegal_iff (p : Prop) [Decidable p] (i : Instr) (r : IllegalReason) :
    (∃ e, (if p then Decoded.ok i else .illegal r) = .illegal e) ↔ ¬ p := by
  by_cases hp : p
  · simp [hp]
  · simp [hp]

/-- Class (b) comes first in the decoder; after it, each value of `OP` leaves the one class of its format,
and `RD` class (f) besides. -/
theorem illegalWord_iff_decode_illegal (w : Word) :
    illegalWord w = true ↔ ∃ r, decode w = .illegal r := by
  by_cases hz : zField w = 0
  case neg =>
    have hword : illegalWord w = true := by
      have hne : zField w ≠ 0#3 := hz
      simp [illegalWord, hne]
    exact iff_of_true hword ⟨.reservedZ, if_pos hz⟩
  case pos =>
    rw [decode, if_neg (not_not_intro hz)]
    split
    case h_1 hop | h_2 hop | h_6 hop | h_7 hop =>
      rw [ite_ok_eq_illegal_iff]; simp [illegalWord, hz, hop]
    case h_3 hop =>
      by_cases hdata : dataField w = 0
      · rw [if_pos hdata, ite_ok_eq_illegal_iff]; simp [illegalWord, hz, hop, hdata]
      · rw [if_neg hdata]; simpa [illegalWord, hz, hop] using Or.inl hdata
    case h_4 hop | h_5 hop =>
      rw [ite_ok_eq_illegal_iff]; simp [illegalWord, hz, hop, imp_iff_or_not]
    case h_8 h1 h2 h3 h4 h5 h6 h7 =>
      simp only [imp_false] at h1 h2 h3 h4 h5 h6 h7
      have hop : (opField w).toNat = 0 ∨ 8 ≤ (opField w).toNat := by omega
      simp [illegalWord, hop]

/-! ### The step at an illegal word (R162) -/

/-- Both forms of an offer reach the decoder, and an illegal word is taken alike from either. -/
theorem fetch_of_decode_illegal {s : State} {w : Word} {r : IllegalReason}
    (hcmd : s.cmd = some w) (hbusy : s.busy = false) (hw : decode w = .illegal r) :
    fetch s = .illegal w s.dropInput := by
  rcases hin : s.inputs with _ | ⟨_ | _ | _, rest⟩
  case nil => simp [State.cmd, hin] at hcmd
  case cons.command v =>
    obtain rfl : v = w := by simpa [State.cmd, hin] using hcmd
    simp [fetch, hin, hbusy, hw]
  case cons.partway v k =>
    obtain rfl : v = w := by simpa [State.cmd, hin] using hcmd
    simp [fetch, hin, hbusy, hw]
  case cons.reset => simp [State.cmd, hin] at hcmd

theorem step_of_illegalWord {s : State} {w : Word}
    (hcmd : s.cmd = some w) (hbusy : s.busy = false) (hw : illegalWord w = true) :
    step s = .next (raiseIllegal w s.dropInput) := by
  obtain ⟨r, hr⟩ := (illegalWord_iff_decode_illegal w).mp hw
  rw [step, fetch_of_decode_illegal hcmd hbusy hr]

/-- Settles O6: the decoder rejects exactly the words of the classes, so the step that meets one of them
is `raiseIllegal` on the state with the offer used up. -/
theorem illegalClassesRaiseIllegalCommand : Obligations.IllegalClassesRaiseIllegalCommand := by
  unfold Obligations.IllegalClassesRaiseIllegalCommand
  intro w
  refine ⟨illegalWord_iff_decode_illegal w, fun hw s hcmd hbusy => ?_⟩
  exact ⟨raiseIllegal w s.dropInput, step_of_illegalWord hcmd hbusy hw, rfl, rfl, rfl, rfl⟩

end Sys2Proof.Machine
end

section
/-! PROOFS. The layout of a response on the port (R88): a response word has the fields of a command word
(R71), with `ERR` the lowest bit of the reserved field. -/

namespace Sys2Proof.Machine

theorem rspWord_eq_ofFields (op : BitVec 4) (r : Response) :
    rspWord op r = ofFields op ((BitVec.ofBool r.err).zeroExtend 3) r.a r.data := by
  have herr : ((BitVec.ofBool r.err).zeroExtend 3).zeroExtend 16
      = (BitVec.ofBool r.err).zeroExtend 16 := by cases r.err <;> rfl
  rw [rspWord, ofFields, herr]

@[simp] theorem opField_rspWord (op : BitVec 4) (r : Response) : opField (rspWord op r) = op := by
  rw [rspWord_eq_ofFields, opField_ofFields]

@[simp] theorem zField_rspWord (op : BitVec 4) (r : Response) :
    zField (rspWord op r) = (BitVec.ofBool r.err).zeroExtend 3 := by
  rw [rspWord_eq_ofFields, zField_ofFields]

@[simp] theorem fField_rspWord (op : BitVec 4) (r : Response) : fField (rspWord op r) = r.a := by
  rw [rspWord_eq_ofFields, fField_ofFields]

@[simp] theorem dataField_rspWord (op : BitVec 4) (r : Response) :
    dataField (rspWord op r) = r.data := by
  rw [rspWord_eq_ofFields, dataField_ofFields]

/-- Bits 11:10 of a word are the two upper bits of its `Z`. -/
theorem extractLsb'_zField (w : Word) : (zField w).extractLsb' 1 2 = w.extractLsb' 10 2 := by
  ext i hi
  have hlt : 1 + i < 3 := by omega
  simp [zField, hlt, ← Nat.add_assoc]

/-- Bit 9 of a word is the lowest bit of its `Z`. -/
theorem getLsbD_zField_zero (w : Word) : (zField w).getLsbD 0 = w.getLsbD 9 := by
  simp [zField]

theorem rspWord_reserved (op : BitVec 4) (r : Response) :
    (rspWord op r).extractLsb' 10 2 = 0 := by
  rw [← extractLsb'_zField, zField_rspWord]
  cases r.err <;> rfl

theorem rspWord_errBit (op : BitVec 4) (r : Response) :
    (rspWord op r).getLsbD 9 = r.err := by
  rw [← getLsbD_zField_zero, zField_rspWord]
  cases r.err <;> rfl

theorem rspWord_aBit (op : BitVec 4) (r : Response) : (rspWord op r).getLsbD 8 = r.a :=
  fField_rspWord op r

theorem Response.err_iff (r : Response) : r.err = true ↔ ∃ c w, r = .illegal c w := by
  cases r with
  | illegal c w => exact iff_of_true rfl ⟨c, w, rfl⟩
  | none => simp [Response.err]
  | level v => simp [Response.err]
  | ack a => simp [Response.err]
  | byte v => simp [Response.err]

theorem Response.a_iff (r : Response) : r.a = true ↔ r = .ack true ∨ r = .level true := by
  cases r with
  | ack a => simp [Response.a]
  | level v => simp [Response.a]
  | none => simp [Response.a]
  | byte v => simp [Response.a]
  | illegal c w => simp [Response.a]

/-- Settles O31: each field of the response word is the response's own, and what `ERR`, `A` and the byte
are is read off the kind of response. -/
theorem responseWordLayout : Obligations.ResponseWordLayout := by
  unfold Obligations.ResponseWordLayout
  intro op r
  refine ⟨opField_rspWord op r, rspWord_reserved op r, ?_, ?_, ?_⟩
  · rw [rspWord_errBit, Response.err_iff]
  · rw [rspWord_aBit, Response.a_iff]
  · refine (dataField_rspWord op r).trans ?_
    cases r with
    | byte v => rfl
    | illegal c w => cases c; rfl
    | none => rfl
    | level v => rfl
    | ack a => rfl

end Sys2Proof.Machine
end

section
/-! PROOFS. The micro-steps that touch a line (R100 to R102): the direction they leave, what it puts on the
wire, and the one condition each can create. -/

namespace Sys2Proof.Machine

/-! ### A change of one direction (R22, R25, R30) -/

/-- With pull-ups only another agent's pull shows on a released line. -/
theorem wire_rel_of_pullups (floating pulled : Level) :
    wire true floating .rel pulled = !pulled := by
  cases pulled <;> rfl

/-- A driven line is 0: no pull of `Env`, no pull-up and no floating level matters. -/
theorem wire_low (pullups floating pulled : Level) : wire pullups floating .low pulled = false := rfl

/-- Of the releases, only that of D from `[H L]` is a condition, since one of C leaves D as it is. -/
theorem conditionOf_set_rel (l : Line) (x : Dirs) :
    conditionOf x (x.set l .rel) = if l = .d ∧ x = ⟨.rel, .low⟩ then some .stop else none := by
  obtain ⟨c, d⟩ := x
  cases l with
  | c => cases c <;> cases d <;> rfl
  | d => cases c <;> cases d <;> rfl

/-- Of the drives, only that of D from `[H H]` is a condition, since one of C leaves C not released. -/
theorem conditionOf_set_low (l : Line) (x : Dirs) :
    conditionOf x (x.set l .low) = if l = .d ∧ x = ⟨.rel, .rel⟩ then some .start else none := by
  obtain ⟨c, d⟩ := x
  cases l with
  | c => cases c <;> cases d <;> rfl
  | d => cases c <;> cases d <;> rfl

/-! ### What a micro-step makes of the whole state -/

theorem doMicro_rel (l : Line) (s : State) :
    doMicro (.rel l) s
      = { s with dirs := s.dirs.set l .rel, trace := s.trace ++ [Event.rel l] } := rfl

theorem doMicro_low (l : Line) (s : State) :
    doMicro (.low l) s
      = { s with dirs := s.dirs.set l .low, trace := s.trace ++ [Event.low l] } := rfl

theorem doMicro_rd (dst : Dest) (s : State) :
    doMicro (.rd dst) s
      = { s with
          dirs := s.dirs.set .d .rel
          trace := s.trace ++ [Event.rd s.sampleLevel]
          answers := s.answers.tail
          seq := s.seq.map (fun q => q.store dst s.sampleLevel) } := rfl

/-! ### The obligations -/

/-- Settles O7: the released line is up to the other agents, and the change of its direction is a STOP
only on D from `[H L]`. -/
theorem releaseMicroStep : Obligations.ReleaseMicroStep := by
  unfold Obligations.ReleaseMicroStep
  intro l s
  refine ⟨doMicro_rel l s, fun floating pulled => ?_, conditionOf_set_rel l s.dirs⟩
  rw [doMicro_rel, Dirs.set_get, wire_rel_of_pullups]

/-- Settles O8: the driven line is 0 whatever else is on it, and the change of its direction is a START
only on D from `[H H]`. -/
theorem driveLowMicroStep : Obligations.DriveLowMicroStep := by
  unfold Obligations.DriveLowMicroStep
  intro l s
  have hdir : (doMicro (.low l) s).dirs.get l = .low := by rw [doMicro_low, Dirs.set_get]
  refine ⟨doMicro_low l s, fun pullups floating pulled => ?_, conditionOf_set_low l s.dirs, ?_⟩
  · rw [hdir, wire_low]
  · rw [hdir]; rfl

/-- Settles O9: the level is `State.sampleLevel`, and the release inside the read is that of D. -/
theorem readMicroStep : Obligations.ReadMicroStep := by
  unfold Obligations.ReadMicroStep
  intro dst s
  refine ⟨s.sampleLevel, fun a rest => State.sampleLevel_cons, State.sampleLevel_nil,
    doMicro_rd dst s, ?_⟩
  simpa [doMicro_rd] using conditionOf_set_rel .d s.dirs

end Sys2Proof.Machine
end

section
/-! PROOFS. A word that decodes to a command is that command's word (R77), so where an `OP` has few
legal words every other word of it is illegal (R76). -/

namespace Sys2Proof

@[simp] theorem selectOfLine_lineOfSelect (f : Bool) : selectOfLine (lineOfSelect f) = f := by
  cases f <;> rfl

@[simp] theorem opField_encode (i : Instr) : opField (encode i) = opOf i := by
  cases i <;> exact opField_ofFields ..

/-- A word whose reserved field is zero is the word of its three other fields. -/
theorem ofFields_eq_of_fields {w : Word} {op : BitVec 4} {f : Bool} {data : Byte}
    (hz : zField w = 0) (hop : (opField w).toNat = op.toNat) (hf : fField w = f)
    (hdata : dataField w = data) : ofFields op 0 f data = w := by
  rw [← BitVec.eq_of_toNat_eq hop, ← hf, ← hdata, ← hz, ofFields_fields]

/-- The decoder accepts a word only where the fields it does not pass on have their one legal value. -/
theorem encode_of_decode_ok {w : Word} {i : Instr} (h : decode w = .ok i) :
    encode i = w ∧ WellFormed i := by
  unfold decode at h
  split at h
  case isTrue => cases h
  case isFalse hz =>
    have hz : zField w = 0 := not_not.mp hz
    split at h
    case h_1 hop | h_2 hop | h_7 hop =>
      split at h
      · next hdata => cases h; exact ⟨ofFields_eq_of_fields hz hop (by simp) hdata, rfl⟩
      · cases h
    case h_3 hop =>
      split at h
      · next hdata =>
        split at h
        · next hf => cases h; exact ⟨ofFields_eq_of_fields hz hop hf hdata, rfl⟩
        · cases h
      · cases h
    case h_4 hop | h_5 hop =>
      split at h
      · next hbits =>
        obtain ⟨hdata, hf⟩ := hbits
        cases h; exact ⟨ofFields_eq_of_fields hz hop hf hdata, rfl⟩
      · cases h
    case h_6 hop =>
      split at h
      · next hf => cases h; exact ⟨ofFields_eq_of_fields hz hop hf rfl, rfl⟩
      · cases h
    case h_8 => cases h

/-- A word is illegal unless it is the word of a legal command of its own `OP`. -/
theorem decode_illegal_of_ne_encode {w : Word}
    (h : ∀ i, WellFormed i → opOf i = opField w → w ≠ encode i) : ∃ r, decode w = .illegal r := by
  cases hw : decode w with
  | illegal r => exact ⟨r, rfl⟩
  | ok i =>
    obtain ⟨hi, hwf⟩ := encode_of_decode_ok hw
    exact absurd hi.symm (h i hwf (by rw [← hi, opField_encode]))

end Sys2Proof
end

section
/-! PROOFS. The line commands (R106 to R109): each is one micro-step with no delay, and so is the whole of
its effect. -/

namespace Sys2Proof.Machine

/-! ### A command of one micro-step -/

/-- Without further delays a micro-step records its one event. -/
theorem microStep_noDelays_trace (m : Micro) (s : State) :
    (microStep noDelays m s).trace = s.trace ++ microEvents [m] [s.sampleLevel] := by
  cases m <;> exact List.append_nil _

theorem runCommand_one_trace {slack : Slack} {i : Instr} (hd : delaysOf slack i = noDelays)
    (m : Micro) (s : State) :
    (runCommand slack i [m] s).trace
      = s.trace ++ .issue (encode i) :: microEvents [m] [(accept i s).sampleLevel] := by
  rw [runCommand, complete_trace, hd, runMicros, runMicros, microStep_noDelays_trace, accept_trace,
    List.append_assoc, List.singleton_append]

theorem commandEnd_one (slack : Slack) (i : Instr) (m : Micro) (s : State) :
    commandEnd slack i [m] s
      = Running.after { instr := i, pos := 0, shift := 0x00, sample := false } m
          (accept i s).sampleLevel := by
  cases m <;> rfl

/-- `i` is a line command: it runs the one micro-step `m`, to which no implementation adds a delay. -/
structure RunsOneMicro (i : Instr) (m : Micro) : Prop where
  wellFormed : WellFormed i
  program_eq : program i = [m]
  noDelay : ∀ slack, delaysOf slack i = noDelays

theorem runsOneMicro_rel (l : Line) : RunsOneMicro (.rel l) (.rel l) := ⟨rfl, rfl, fun _ => rfl⟩
theorem runsOneMicro_low (l : Line) : RunsOneMicro (.low l) (.low l) := ⟨rfl, rfl, fun _ => rfl⟩
theorem runsOneMicro_rd : RunsOneMicro (.rd .d) (.rd .level) := ⟨rfl, rfl, fun _ => rfl⟩

/-- The whole effect of a line command whose micro-step `m` samples `v`. -/
structure LineEffect (i : Instr) (m : Micro) (v : Level) (s t : State) : Prop where
  dirs : t.dirs = microDirs s.dirs m
  trace : t.trace = s.trace ++ .issue (encode i) :: microEvents [m] [v]
  responses : t.responses
    = s.responses
      ++ [responseOf (Running.after { instr := i, pos := 0, shift := 0x00, sample := false } m v)]
  fault : t.fault = s.fault
  inputs : t.inputs = s.inputs
  earlier : t.earlier = s.earlier
  seq : t.seq = none
  answers : t.answers = s.answers.drop (sampleCount i)

/-- Every line command completes from every state; its sample, if it takes one, is Env's answer once the
word is recorded. -/
theorem RunsOneMicro.exec_effect {i : Instr} {m : Micro} (h : RunsOneMicro i m) (s : State) :
    ∃ t, exec i s = .next t ∧ LineEffect i m (accept i s).sampleLevel s t := by
  refine ⟨runCommand Config.extraWaits i [m] s, ?_, ?_⟩
  · rw [exec_eq_runCommand s h.wellFormed, h.program_eq]
  · exact {
      dirs := runCommand_dirs ..
      trace := runCommand_one_trace (h.noDelay _) m s
      responses := by rw [runCommand_responses, commandEnd_one]
      fault := runCommand_fault ..
      inputs := runCommand_inputs ..
      earlier := runCommand_earlier ..
      seq := runCommand_seq ..
      answers := by rw [runCommand_answers, ← h.program_eq, program_reads h.wellFormed] }

/-- A line command whose micro-step sets the direction of `l` leaves the other line as it is. -/
theorem LineEffect.get_dirs {i : Instr} {m : Micro} {v : Level} {s t : State} {l : Line} {x : Dir}
    (ht : LineEffect i m v s t) (hm : microDirs s.dirs m = s.dirs.set l x) :
    t.dirs.get l = x ∧ ∀ k, k ≠ l → t.dirs.get k = s.dirs.get k := by
  rw [ht.dirs, hm]
  exact ⟨Dirs.set_get .., fun k hk => Dirs.set_get_of_ne _ _ hk⟩

/-! ### Conditions and words of the line commands -/

theorem conditions_singleton (x : Dirs) (e : Event) :
    conditions x [e] = (conditionOf x (e.effect x)).toList := by
  rw [conditions_cons, conditions_nil, List.append_nil]

theorem conditions_release (l : Line) (x : Dirs) :
    conditions x [.rel l] = if l = .d ∧ x = ⟨.rel, .low⟩ then [.stop] else [] := by
  rw [conditions_singleton, Event.effect, conditionOf_set_rel]
  split <;> rfl

theorem conditions_driveLow (l : Line) (x : Dirs) :
    conditions x [.low l] = if l = .d ∧ x = ⟨.rel, .rel⟩ then [.start] else [] := by
  rw [conditions_singleton, Event.effect, conditionOf_set_low]
  split <;> rfl

/-- A read releases D, so it creates what that release does. -/
theorem conditions_read (v : Level) (x : Dirs) :
    conditions x [.rd v] = if x = ⟨.rel, .low⟩ then [.stop] else [] := by
  have h : conditions x [.rd v] = conditions x [.rel .d] := rfl
  simpa using h.trans (conditions_release .d x)

theorem encode_rel (l : Line) : encode (.rel l) = if l = .c then 0x1000 else 0x1100 := by
  cases l <;> rfl

theorem encode_low (l : Line) : encode (.low l) = if l = .c then 0x2000 else 0x2100 := by
  cases l <;> rfl

/-! ### The obligations -/

/-- Settles O11: the effect is that of the one `rel(l)`, and the two words are the only ones of `OP` 0x1. -/
theorem relReleasesTheLine : Obligations.RelReleasesTheLine := by
  unfold Obligations.RelReleasesTheLine
  refine ⟨fun l s => ?_, fun w hop hc hd => decode_illegal_of_ne_encode fun i _ hi => ?_⟩
  · obtain ⟨t, hexec, ht⟩ := (runsOneMicro_rel l).exec_effect s
    refine ⟨t, hexec, ht.dirs, ?_, ht.responses, ht.fault, conditions_release l s.dirs⟩
    rw [← encode_rel]; exact ht.trace
  · rw [hop] at hi
    cases i with
    | rel l => cases l with
      | c => exact hc
      | d => exact hd
    | _ => exact absurd hi (by simp [opOf])

/-- Settles O12: the effect is that of the one `low(l)`, and the two words are the only ones of `OP` 0x2. -/
theorem lowDrivesTheLine : Obligations.LowDrivesTheLine := by
  unfold Obligations.LowDrivesTheLine
  refine ⟨fun l s => ?_, fun w hop hc hd => decode_illegal_of_ne_encode fun i _ hi => ?_⟩
  · obtain ⟨t, hexec, ht⟩ := (runsOneMicro_low l).exec_effect s
    refine ⟨t, hexec, ht.dirs, ?_, ht.responses, ht.fault, conditions_driveLow l s.dirs⟩
    rw [← encode_low]; exact ht.trace
  · rw [hop] at hi
    cases i with
    | low l => cases l with
      | c => exact hc
      | d => exact hd
    | _ => exact absurd hi (by simp [opOf])

/-- Settles O13: the effect is that of the one `rd()`, sampled after `Issue`; of the two words of `OP` 0x3
that format L has, 0x3000 belongs to the ill-formed term. -/
theorem rdSamplesTheDataLine : Obligations.RdSamplesTheDataLine := by
  unfold Obligations.RdSamplesTheDataLine
  refine ⟨fun s => ?_, fun w hop hd => decode_illegal_of_ne_encode fun i hwf hi => ?_⟩
  · obtain ⟨t, hexec, ht⟩ := runsOneMicro_rd.exec_effect s
    have hanswers : t.answers = s.answers.tail := by rw [ht.answers, sampleCount, List.drop_one]
    exact ⟨t, (accept (.rd .d) s).sampleLevel, hexec, ht.dirs, ht.trace, ht.responses, ht.fault,
      hanswers, fun a rest h => State.sampleLevel_cons h, fun h => State.sampleLevel_nil h,
      conditions_read _ s.dirs⟩
  · rw [hop] at hi
    cases i with
    | rd l => cases l with
      | c => exact absurd hwf (by decide)
      | d => exact hd
    | _ => exact absurd hi (by simp [opOf])

/-- Settles O27: the three commands have the effect of their one micro-step, which names the direction,
the event and the sample. -/
theorem frameOfLineCommands : Obligations.FrameOfLineCommands := by
  unfold Obligations.FrameOfLineCommands
  rintro i l m x s (⟨rfl, rfl⟩ | ⟨rfl, rfl⟩ | ⟨rfl, rfl, rfl⟩)
  · obtain ⟨t, hexec, ht⟩ := (runsOneMicro_rel l).exec_effect s
    obtain ⟨hline, hother⟩ := ht.get_dirs (l := l) rfl
    exact ⟨t, .rel l, hexec, hline, hother m, ht.trace, by simp, by simp, ht.fault, ht.inputs,
      ht.earlier, ht.seq, ht.answers⟩
  · obtain ⟨t, hexec, ht⟩ := (runsOneMicro_low l).exec_effect s
    obtain ⟨hline, hother⟩ := ht.get_dirs (l := l) rfl
    exact ⟨t, .low l, hexec, hline, hother m, ht.trace, by simp, by simp, ht.fault, ht.inputs,
      ht.earlier, ht.seq, ht.answers⟩
  · obtain ⟨t, hexec, ht⟩ := runsOneMicro_rd.exec_effect s
    obtain ⟨hline, hother⟩ := ht.get_dirs (l := .d) rfl
    exact ⟨t, .rd _, hexec, hline, hother m, ht.trace, by simp, by simp, ht.fault, ht.inputs,
      ht.earlier, ht.seq, ht.answers⟩

end Sys2Proof.Machine
end

section
/-! PROOFS. The whole effect of a command that may be delayed anywhere (R58, R121), and the derived views
its trace has whatever the delays: conditions, the events that create them, the data line at clock high. -/

namespace Sys2Proof.Machine

/-! ### A command from acceptance to completion -/

/-- The effect of a command whose samples took the levels `vs` and whose micro-steps recorded `evs`. -/
structure CommandEffect (i : Instr) (vs : List Level) (evs : Trace) (s t : State) : Prop where
  levels_length : vs.length = sampleCount i
  trace : t.trace = s.trace ++ .issue (encode i) :: evs
  events : WithExtraDelays (microEvents (program i) vs) evs
  dirs : t.dirs = (program i).foldl microDirs s.dirs
  responses : t.responses
    = s.responses
      ++ [responseOf
          (storeAll { instr := i, pos := 0, shift := 0x00, sample := false } (program i) vs)]
  fault : t.fault = s.fault
  seq : t.seq = none
  answered : ∀ as rest, as.length = sampleCount i → s.answers = as ++ rest →
    as = vs ∧ t.answers = rest

/-- Every command completes from every state; where Env's answers are constrained, its samples are the
next of them. -/
theorem exec_commandEffect {i : Instr} (h : WellFormed i) (s : State) :
    ∃ t evs vs, exec i s = .next t ∧ CommandEffect i vs evs s t := by
  obtain ⟨evs, htrace, hsub, hline⟩ := runCommand_trace Config.extraWaits i (program i) s
  have hreads := program_reads h
  refine ⟨_, evs, commandLevels Config.extraWaits i (program i) s, exec_eq_runCommand s h, ?_⟩
  exact {
    levels_length := by rw [commandLevels_length, hreads]
    trace := htrace
    events := ⟨hsub, hline⟩
    dirs := runCommand_dirs ..
    responses := runCommand_responses ..
    fault := runCommand_fault ..
    seq := runCommand_seq ..
    answered := fun as rest hlen has => by
      constructor
      · rw [commandLevels_of_answers _ _ _ _ (by simp [hreads, has, hlen]), hreads, has, ← hlen,
          List.take_left]
      · rw [runCommand_answers, hreads, has, ← hlen, List.drop_left] }

/-- The line trace of a command: its word, then its micro-steps without the delays. -/
theorem CommandEffect.lineTrace {i : Instr} {vs : List Level} {evs : Trace} {s t : State}
    (ht : CommandEffect i vs evs s t) :
    lineTrace t.trace
      = lineTrace s.trace ++ .issue (encode i) :: lineTrace (microEvents (program i) vs) := by
  rw [ht.trace, lineTrace_append, ← ht.events.2]; rfl

/-! ### Further delays change no derived view (R121) -/

theorem conditionEvents_cons (x : Dirs) (e : Event) (es : Trace) :
    conditionEvents x (e :: es)
      = ((conditionOf x (e.effect x)).map (fun c => (e, c))).toList
        ++ conditionEvents (e.effect x) es := by
  cases h : conditionOf x (e.effect x) <;> simp [conditionEvents, annotate, h]

theorem conditionEvents_lineTrace (x : Dirs) (tr : Trace) :
    conditionEvents x (lineTrace tr) = conditionEvents x tr := by
  induction tr generalizing x with
  | nil => rfl
  | cons e es ih => cases e <;> simp_all [lineTrace, conditionEvents_cons, Event.effect]

/-- The conditions are those of the events that create them. -/
theorem conditions_eq_map_conditionEvents (x : Dirs) (tr : Trace) :
    conditions x tr = (conditionEvents x tr).map Prod.snd := by
  induction tr generalizing x with
  | nil => rfl
  | cons e es ih =>
    rw [conditions_cons, conditionEvents_cons, ih]
    cases conditionOf x (e.effect x) <;> rfl

section
variable {must evs : Trace} (h : WithExtraDelays must evs) (x : Dirs)
include h

theorem WithExtraDelays.conditionEvents_eq : conditionEvents x evs = conditionEvents x must := by
  rw [← conditionEvents_lineTrace, h.2, conditionEvents_lineTrace]

theorem WithExtraDelays.conditions_eq : conditions x evs = conditions x must := by
  rw [← conditions_lineTrace, h.2, conditions_lineTrace]

theorem WithExtraDelays.dataAtClockHigh_eq : dataAtClockHigh x evs = dataAtClockHigh x must := by
  rw [← dataAtClockHigh_lineTrace, h.2, dataAtClockHigh_lineTrace]

end

@[simp] theorem conditions_issue_cons (x : Dirs) (w : Word) (tr : Trace) :
    conditions x (.issue w :: tr) = conditions x tr := by
  simp [conditions_cons, Event.effect]

@[simp] theorem dataAtClockHigh_issue_cons (x : Dirs) (w : Word) (tr : Trace) :
    dataAtClockHigh x (.issue w :: tr) = dataAtClockHigh x tr := rfl

end Sys2Proof.Machine
end

section
/-! PROOFS. START and STOP (R122 to R124). -/

namespace Sys2Proof.Machine

/-- A condition does not appear on the wires while an agent of Env holds D low (R30, R190). -/
theorem wireCondition_of_pullsD (pullsC : Bool) (x y : Dirs) :
    wireCondition pullsC true x y = none := by
  simp [wireCondition]

theorem start_conditionEvents (x : Dirs) (vs : List Level) :
    conditionEvents x (microEvents startProgram vs)
      = (if x = ⟨.rel, .low⟩ then [(Event.rel .d, Condition.stop)] else [])
        ++ [(Event.low .d, Condition.start)] := by
  obtain ⟨c, d⟩ := x
  cases c <;> cases d <;> rfl

theorem stop_conditionEvents (x : Dirs) (vs : List Level) :
    conditionEvents x (microEvents stopProgram vs)
      = (if x = ⟨.rel, .rel⟩ then [(Event.low .d, Condition.start)] else [])
        ++ [(Event.rel .d, Condition.stop)] := by
  obtain ⟨c, d⟩ := x
  cases c <;> cases d <;> rfl

/-- Settles O15: only the `rD` of `START` looks at the directions it finds. -/
theorem startRunsItsSequence : Obligations.StartRunsItsSequence := by
  unfold Obligations.StartRunsItsSequence
  intro s
  obtain ⟨t, evs, vs, hexec, ht⟩ := exec_commandEffect (i := .start) rfl s
  have hconds := conditions_eq_map_conditionEvents s.dirs evs
  rw [ht.events.conditionEvents_eq, program, start_conditionEvents] at hconds
  refine ⟨t, evs, hexec, ht.trace, ht.events, ht.dirs, ht.responses, ht.fault, fun hd => ?_,
    fun hd => ?_, fun pullsC => wireCondition_of_pullsD pullsC _ _⟩
  · rw [hconds, if_pos hd]; rfl
  · rw [hconds, if_neg hd]; rfl

/-- Settles O16: only the `lD` of `STOP` looks at the directions it finds. -/
theorem stopRunsItsSequence : Obligations.StopRunsItsSequence := by
  unfold Obligations.StopRunsItsSequence
  intro s
  obtain ⟨t, evs, vs, hexec, ht⟩ := exec_commandEffect (i := .stop) rfl s
  have hconds := conditions_eq_map_conditionEvents s.dirs evs
  rw [ht.events.conditionEvents_eq, program, stop_conditionEvents] at hconds
  refine ⟨t, evs, hexec, ht.trace, ht.events, ht.dirs, ht.responses, ht.fault, ?_, fun hd => ?_,
    fun hd => ?_, fun pullsC => wireCondition_of_pullsD pullsC _ _⟩
  · rw [ht.dirs, program, stopProgram_dirs]; rfl
  · rw [hconds, if_pos hd]; rfl
  · rw [hconds, if_neg hd]; rfl

/-- Settles O17: further delays create no condition, so the events are those of the two lists. -/
theorem conditionsOfStartAndStop : Obligations.ConditionsOfStartAndStop := by
  unfold Obligations.ConditionsOfStartAndStop
  intro s
  constructor
  · obtain ⟨t, evs, vs, hexec, ht⟩ := exec_commandEffect (i := .start) rfl s
    exact ⟨t, evs, hexec, ht.trace,
      (ht.events.conditionEvents_eq _).trans (start_conditionEvents s.dirs vs)⟩
  · obtain ⟨t, evs, vs, hexec, ht⟩ := exec_commandEffect (i := .stop) rfl s
    exact ⟨t, evs, hexec, ht.trace,
      (ht.events.conditionEvents_eq _).trans (stop_conditionEvents s.dirs vs)⟩

end Sys2Proof.Machine
end

section
/-! PROOFS. A byte as eight levels, bit 7 first (R53, R126, R131): stored bit by bit, shifted in, and its
value. -/

namespace Sys2Proof.Machine

theorem getElem_setBit (v : Byte) (i : Fin 8) (s : Level) {j : Nat} (hj : j < 8) :
    (setBit v i s)[j] = if j = i.val then s else v[j] := by
  by_cases h : j = i.val
  · cases s <;> simp [setBit, h]
  · have hbit : (1#8 <<< i.val)[j] = false := by simp; omega
    cases s <;> simp only [setBit, h] <;> simp [hbit]

theorem assembleByte_bitsMsbFirst (b : Byte) : assembleByte (bitsMsbFirst b) = b := by
  apply BitVec.eq_of_getLsbD_eq
  intro i hi
  simp only [assembleByte, bitsMsbFirst, List.foldl_cons, List.foldl_nil]
  interval_cases i <;> simp

/-- Samples stored at bits 7 down to 0 are the byte's bits, whatever was there before. -/
theorem bitsMsbFirst_setBits (v : Byte) (s1 s2 s3 s4 s5 s6 s7 s8 : Level) :
    bitsMsbFirst (setBit (setBit (setBit (setBit (setBit (setBit (setBit (setBit v 7 s1) 6 s2) 5 s3)
      4 s4) 3 s5) 2 s6) 1 s7) 0 s8) = [s1, s2, s3, s4, s5, s6, s7, s8] := by
  simp [bitsMsbFirst, getElem_setBit]

/-- One step of R131's `v <- ((v << 1) | s) mod 256`, on bytes and on numbers. -/
theorem toNat_shiftIn (v : Byte) (x : Level) :
    ((v <<< 1) ||| (BitVec.ofBool x).zeroExtend 8).toNat = ((v.toNat <<< 1) ||| x.toNat) % 256 := by
  have hx : x.toNat < 256 := x.toNat_lt.trans (by decide)
  simp [Nat.or_mod_two_pow (n := 8), Nat.mod_eq_of_lt hx]

theorem toNat_assembleByte (vs : List Level) :
    (assembleByte vs).toNat = vs.foldl (fun n x => ((n <<< 1) ||| x.toNat) % 256) 0 :=
  (List.foldl_hom BitVec.toNat fun v x => (toNat_shiftIn v x).symm).symm

theorem shiftLeft_one_or_bool (n : Nat) (x : Level) : (n <<< 1) ||| x.toNat = n * 2 + x.toNat := by
  rw [← Nat.shiftLeft_add_eq_or_of_lt (by simpa using x.toNat_lt), Nat.shiftLeft_eq, Nat.pow_one]

/-- Eight samples are the binary digits of the byte, so no step of R131 overflows. -/
theorem toNat_assembleByte_eight (s1 s2 s3 s4 s5 s6 s7 s8 : Level) :
    (assembleByte [s1, s2, s3, s4, s5, s6, s7, s8]).toNat
      = s1.toNat * 128 + s2.toNat * 64 + s3.toNat * 32 + s4.toNat * 16
        + s5.toNat * 8 + s6.toNat * 4 + s7.toNat * 2 + s8.toNat := by
  have h1 := s1.toNat_le
  have h2 := s2.toNat_le
  have h3 := s3.toNat_le
  have h4 := s4.toNat_le
  have h5 := s5.toNat_le
  have h6 := s6.toNat_le
  have h7 := s7.toNat_le
  have h8 := s8.toNat_le
  simp only [toNat_assembleByte, List.foldl_cons, List.foldl_nil, shiftLeft_one_or_bool]
  omega

end Sys2Proof.Machine
end

section
/-! PROOFS. WRB and RDB (R127 to R134): the bits on the data line, the samples and the byte they make. -/

namespace Sys2Proof.Machine

/-! ### WRB (R127) -/

theorem encode_wrb (b : Byte) : encode (.wrb b) = 0x6000 + b.zeroExtend 16 := by
  have h : (0x6000 : Word) &&& b.zeroExtend 16 = 0 := by
    apply BitVec.eq_of_getLsbD_eq
    intro i hi
    interval_cases i <;> simp
  rw [BitVec.add_eq_or_of_and_eq_zero _ _ h]
  simp [encode, ofFields, opOf]

/-- `WRB` completes from every state with its one sample `v` as the ACK level. -/
theorem exec_wrb_effect (b : Byte) (s : State) :
    ∃ t evs v, exec (.wrb b) s = .next t ∧ CommandEffect (.wrb b) [v] evs s t ∧
      t.responses = s.responses ++ [.ack (v == false)] := by
  obtain ⟨t, evs, vs, hexec, ht⟩ := exec_commandEffect (i := .wrb b) rfl s
  obtain ⟨v, rfl⟩ := List.length_eq_one_iff.1 ht.levels_length
  refine ⟨t, evs, v, hexec, ht, ?_⟩
  rw [ht.responses, responseOf, storeAll_instr, program, wrbProgram_sample]
  rfl

/-- The data bits of `WRB` create no condition where the clock is low before them. -/
theorem conditions_wrbBits_of_clock_low (bits : List Level) (y : Dir) (tr : Trace)
    (htr : ∀ z, conditions ⟨.low, z⟩ tr = []) :
    conditions ⟨.low, y⟩ (bits.flatMap wrbBitEvents ++ tr) = [] := by
  induction bits generalizing y with
  | nil => exact htr y
  | cons x bits ih =>
    rw [List.flatMap_cons, List.append_assoc, conditions_wrbBit_of_clock_low, ih]

/-- Nor does the whole of `WRB` (R129(b)). -/
theorem wrb_conditions_of_clock_low (b : Byte) (v : Level) {x : Dirs} (hx : x.c = .low) :
    conditions x (microEvents (wrbProgram b) [v]) = [] := by
  obtain ⟨c, d⟩ := x
  subst hx
  rw [wrbProgram_events]
  exact conditions_wrbBits_of_clock_low _ _ _ fun z => by cases z <;> rfl

/-- The data bits of `WRB` are what the data line holds through their clock-high phases. -/
theorem take_dataAtClockHigh_wrbBits (bits : List Level) (x : Dirs) (tr : Trace) :
    (dataAtClockHigh x (bits.flatMap wrbBitEvents ++ tr)).take bits.length
      = bits.map (fun v => if v then Dir.rel else Dir.low) := by
  induction bits generalizing x with
  | nil => rfl
  | cons v bits ih =>
    rw [List.flatMap_cons, List.append_assoc, dataAtClockHigh_wrbBit, List.length_cons,
      List.take_succ_cons, ih, List.map_cons]

/-- The line events of the data bits of `WRB`: each set, then clocked. -/
theorem lineTrace_wrbBits (bits : List Level) :
    lineTrace (bits.flatMap wrbBitEvents)
      = bits.flatMap (fun x => [setDEvent x, .rel .c, .low .c]) := by
  induction bits with
  | nil => rfl
  | cons x bits ih =>
    rw [List.flatMap_cons, lineTrace_append, ih, List.flatMap_cons]
    cases x <;> rfl

/-- Settles O18: `setD` sends a bit by its direction, and the one sample is Env's next answer. -/
theorem wrbSendsTheByte : Obligations.WrbSendsTheByte := by
  unfold Obligations.WrbSendsTheByte
  intro b s
  obtain ⟨t, evs, v, hexec, ht, hresp⟩ := exec_wrb_effect b s
  have hevents := ht.events
  rw [program, wrbProgram_events] at hevents
  refine ⟨t, evs, v, hexec, ?_, hevents, fun a rest has => ?_, ?_, hresp, ht.fault⟩
  · rw [← encode_wrb]; exact ht.trace
  · obtain ⟨hv, -⟩ := ht.answered [a] rest rfl has
    exact (List.singleton_inj.1 hv).symm
  · rw [ht.dirs, program, wrbProgram_dirs]

/-- Settles O19: the sample goes to the response and to its own event, and to nothing else. -/
theorem ackIffNinthSampleIsZero : Obligations.AckIffNinthSampleIsZero := by
  unfold Obligations.AckIffNinthSampleIsZero
  intro b s v rest has
  obtain ⟨t, evs, v', hexec, ht, hresp⟩ := exec_wrb_effect b s
  obtain ⟨hv, hrest⟩ := ht.answered [v] rest rfl has
  obtain rfl := List.singleton_inj.1 hv
  refine ⟨t, hexec, ?_, hrest, ?_, ?_, ht.fault, ?_⟩
  · rw [hresp, beq_false]
  · rw [ht.lineTrace, program, wrbProgram_events, lineTrace_append, lineTrace_wrbBits]; rfl
  · rw [ht.dirs, program, wrbProgram_dirs]
  · rw [State.busy, ht.seq]; rfl

/-! ### RDB (R130) -/

theorem encode_rdb (k : Bool) : encode (.rdb k) = if k then 0x7100 else 0x7000 := by
  cases k <;> rfl

theorem exists_eq_of_length_eight {α : Type} {l : List α} (h : l.length = 8) :
    ∃ a1 a2 a3 a4 a5 a6 a7 a8, l = [a1, a2, a3, a4, a5, a6, a7, a8] := by
  match l, h with
  | [a1, a2, a3, a4, a5, a6, a7, a8], _ => exact ⟨a1, a2, a3, a4, a5, a6, a7, a8, rfl⟩

/-- What `RDB` leaves in the shift register is what R131 shifts in. -/
theorem rdbProgram_shift_eq_assembleByte (k : Bool) (q : Running) {vs : List Level}
    (h : vs.length = 8) : (storeAll q (rdbProgram k) vs).shift = assembleByte vs := by
  obtain ⟨s1, s2, s3, s4, s5, s6, s7, s8, rfl⟩ := exists_eq_of_length_eight h
  rw [rdbProgram_shift, ← bitsMsbFirst_setBits q.shift, assembleByte_bitsMsbFirst]

/-- `RDB` completes from every state with the byte of its eight samples. -/
theorem exec_rdb_effect (k : Bool) (s : State) :
    ∃ t evs vs, exec (.rdb k) s = .next t ∧ CommandEffect (.rdb k) vs evs s t ∧
      t.responses = s.responses ++ [.byte (assembleByte vs)] := by
  obtain ⟨t, evs, vs, hexec, ht⟩ := exec_commandEffect (i := .rdb k) rfl s
  refine ⟨t, evs, vs, hexec, ht, ?_⟩
  rw [ht.responses, responseOf, storeAll_instr, program,
    rdbProgram_shift_eq_assembleByte k _ ht.levels_length]

/-- Where Env answers `as`, `RDB` completes with their byte. -/
theorem exec_rdb_of_answers (k : Bool) {s : State} {as rest : List Level} (hlen : as.length = 8)
    (has : s.answers = as ++ rest) :
    ∃ t, exec (.rdb k) s = .next t ∧ t.responses = s.responses ++ [.byte (assembleByte as)] ∧
      t.answers = rest := by
  obtain ⟨t, evs, vs, hexec, ht, hresp⟩ := exec_rdb_effect k s
  obtain ⟨rfl, hrest⟩ := ht.answered as rest hlen has
  exact ⟨t, hexec, hresp, hrest⟩

/-- With D released the data bits of `RDB` create no condition. -/
theorem conditions_rdbBits (vs : List Level) (tr : Trace) :
    conditions ⟨.low, .rel⟩ (vs.flatMap rdbBitEvents ++ tr) = conditions ⟨.low, .rel⟩ tr := by
  induction vs with
  | nil => rfl
  | cons v vs ih => rw [List.flatMap_cons, List.append_assoc, ← ih]; rfl

/-- Entered with the clock low, `RDB` creates no condition (R132(c)). -/
theorem rdb_conditions_of_clock_low (k : Bool) {vs : List Level} (h : vs.length = 8) {x : Dirs}
    (hx : x.c = .low) : conditions x (microEvents (rdbProgram k) vs) = [] := by
  obtain ⟨s1, s2, s3, s4, s5, s6, s7, s8, rfl⟩ := exists_eq_of_length_eight h
  obtain ⟨c, d⟩ := x
  subst hx
  have hrelease : conditionOf ⟨.low, d⟩ ⟨.low, .rel⟩ = none := rfl
  rw [rdbProgram_events, conditions_cons]
  simp only [Event.effect, Dirs.set, hrelease, Option.toList_none, List.nil_append,
    conditions_rdbBits]
  cases k <;> rfl

/-- Settles O22: the shift register is filled from bit 7 down, which is the byte of R131. -/
theorem rdbReceivesTheByte : Obligations.RdbReceivesTheByte := by
  unfold Obligations.RdbReceivesTheByte
  intro k s
  obtain ⟨t, evs, vs, hexec, ht, hresp⟩ := exec_rdb_effect k s
  obtain ⟨s1, s2, s3, s4, s5, s6, s7, s8, rfl⟩ := exists_eq_of_length_eight ht.levels_length
  have hevents := ht.events
  rw [program, rdbProgram_events] at hevents
  refine ⟨t, evs, s1, s2, s3, s4, s5, s6, s7, s8, hexec, ?_, hevents, ?_, ht.fault, ht.answered,
    _, hresp, toNat_assembleByte_eight ..⟩
  · rw [← encode_rdb]; exact ht.trace
  · rw [ht.dirs, program, rdbProgram_dirs]

/-- Settles O23: both forms of R131 are the value of `assembleByte`. -/
theorem byteIsTheSamplesShiftedIn : Obligations.ByteIsTheSamplesShiftedIn := by
  unfold Obligations.ByteIsTheSamplesShiftedIn
  intro k s s1 s2 s3 s4 s5 s6 s7 s8 rest has
  obtain ⟨t, hexec, hresp, hrest⟩ := exec_rdb_of_answers k rfl has
  exact ⟨t, _, hexec, hresp, hrest, toNat_assembleByte_eight .., toNat_assembleByte _, rfl⟩

/-! ### Loop-back and the post-state (R133, R134) -/

/-- The direction that sends a bit shows the bit to whoever samples it (R125). -/
theorem levelOfDir_of_bit (v : Level) : levelOfDir (if v then .rel else .low) = v := by
  cases v <;> rfl

/-- Settles O21: the data line through clock-high phases is the byte's bits in wire order, the order in
which `RDB` shifts them in. -/
theorem loopBackReturnsTheByte : Obligations.LoopBackReturnsTheByte := by
  unfold Obligations.LoopBackReturnsTheByte
  intro b k s t u evs rest _ hexec htrace
  obtain ⟨t', evs', v, hexec', ht, -⟩ := exec_wrb_effect b s
  obtain rfl : t = t' := by rw [hexec] at hexec'; injection hexec'
  obtain rfl := List.append_cancel_left (htrace.symm.trans ht.trace)
  have hdata : (dataAtClockHigh s.dirs (.issue (encode (.wrb b)) :: evs')).take 8
      = (bitsMsbFirst b).map (fun x => if x then Dir.rel else Dir.low) := by
    rw [dataAtClockHigh_issue_cons, ht.events.dataAtClockHigh_eq, program, wrbProgram_events]
    exact take_dataAtClockHigh_wrbBits (bitsMsbFirst b) ..
  refine ⟨hdata, fun has => ?_⟩
  have hseen : ((bitsMsbFirst b).map (fun x => if x then Dir.rel else Dir.low)).map levelOfDir
      = bitsMsbFirst b := by simp [Function.comp_def, levelOfDir_of_bit]
  rw [hdata, hseen] at has
  obtain ⟨u', hrdb, hresp, hrest⟩ := exec_rdb_of_answers k rfl has
  rw [assembleByte_bitsMsbFirst] at hresp
  exact ⟨u', hrdb, hresp, hrest⟩

/-- Settles O26: the directions at the end of each list do not depend on those before it, and the byte
commands, entered with the clock low, change D only while it is low. -/
theorem postStateLaw : Obligations.PostStateLaw := by
  unfold Obligations.PostStateLaw
  intro s
  refine ⟨?_, ?_, fun b => ?_, fun k => ?_⟩
  · obtain ⟨t, evs, vs, hexec, ht⟩ := exec_commandEffect (i := .start) rfl s
    exact ⟨t, hexec, ht.dirs.trans (startProgram_dirs _)⟩
  · obtain ⟨t, evs, vs, hexec, ht⟩ := exec_commandEffect (i := .stop) rfl s
    exact ⟨t, hexec, ht.dirs.trans (stopProgram_dirs _)⟩
  · obtain ⟨t, evs, v, hexec, ht, -⟩ := exec_wrb_effect b s
    refine ⟨t, _, hexec, ht.dirs.trans (wrbProgram_dirs b _), ht.trace, fun hc => ?_⟩
    rw [conditions_issue_cons, ht.events.conditions_eq]
    exact wrb_conditions_of_clock_low b v hc
  · obtain ⟨t, evs, vs, hexec, ht⟩ := exec_commandEffect (i := .rdb k) rfl s
    refine ⟨t, _, hexec, ht.dirs.trans (rdbProgram_dirs k _), ht.trace, fun hc => ?_⟩
    rw [conditions_issue_cons, ht.events.conditions_eq]
    exact rdb_conditions_of_clock_low k ht.levels_length hc

end Sys2Proof.Machine
end

section
/-! PROOFS. The effect of an illegal word on the whole state (R162), and the verdict on a run whose fault
mark is set (R34). -/

namespace Sys2Proof.Machine

/-- A run passes only when it has ended and its fault mark is clear (R34, R36). -/
theorem verdict_eq_next_iff (s : State) (o : Observation) :
    verdict s = .next o ↔ s.runEnded = true ∧ s.fault = none ∧ observe s = o := by
  unfold verdict
  by_cases hend : s.runEnded = true
  · cases hfault : s.fault with
    | none => simp [hend]
    | some m => simp [hend]
  · simp [hend]

/-- Settles O40: the step is `raiseIllegal` once the offer is used up, which changes the listed fields and
no other; a successful verdict would need the fault mark clear. -/
theorem illegalCommandEffect : Obligations.IllegalCommandEffect := by
  unfold Obligations.IllegalCommandEffect
  intro s w hbusy hcmd hw
  refine ⟨step_of_illegalWord hcmd hbusy hw, rfl, fun t hmark o hverdict => ?_⟩
  obtain ⟨-, hclear, -⟩ := (verdict_eq_next_iff t o).mp hverdict
  simp [hmark] at hclear

end Sys2Proof.Machine
end

section
/-! PROOFS. The encoding (R70 to R79): the round trip of `encode` and `decode`, the legal words, and the
rows of the opcode map. -/

namespace Sys2Proof

/-! ### The round trip (R77, R78) -/

@[simp] theorem lineOfSelect_selectOfLine (l : Line) : lineOfSelect (selectOfLine l) = l := by
  cases l <;> rfl

/-- The word of a well-formed command has the fields the decoder asks for. -/
theorem decode_encode {i : Instr} (h : WellFormed i) : decode (encode i) = .ok i := by
  cases i with
  | rel l => simp [decode, encode, opOf]
  | low l => simp [decode, encode, opOf]
  | rd l =>
    cases l with
    | c => exact absurd h (by decide)
    | d => simp [decode, encode, opOf, selectOfLine]
  | start => simp [decode, encode, opOf]
  | stop => simp [decode, encode, opOf]
  | wrb b => simp [decode, encode, opOf]
  | rdb k => simp [decode, encode, opOf]

theorem decode_eq_ok_iff (w : Word) (i : Instr) :
    decode w = .ok i ↔ encode i = w ∧ WellFormed i := by
  constructor
  · exact encode_of_decode_ok
  · rintro ⟨rfl, hwf⟩
    exact decode_encode hwf

/-- Settles O1: each field of the word reads back what `encode` put there. -/
theorem decodeOfEncodeIsTheCommand : Obligations.DecodeOfEncodeIsTheCommand := by
  unfold Obligations.DecodeOfEncodeIsTheCommand
  exact fun i h => decode_encode h

/-- Settles O2: the decoder leaves no bit of a legal word open. -/
theorem encodeOfDecodeIsTheWord : Obligations.EncodeOfDecodeIsTheWord := by
  unfold Obligations.EncodeOfDecodeIsTheWord
  exact fun w i h => encode_of_decode_ok h

/-- Settles O3: the eleven words are those of well-formed commands. -/
theorem wordsOfTheAssemblerTableDecode : Obligations.WordsOfTheAssemblerTableDecode := by
  unfold Obligations.WordsOfTheAssemblerTableDecode
  refine ⟨?_, ?_, ?_, ?_, ?_, ?_, ?_, ?_, ?_, ?_, ?_⟩ <;>
    exact (decode_eq_ok_iff _ _).mpr ⟨rfl, rfl⟩

/-! ### The legal words (R74) -/

theorem encode_wrb_ofNat (n : Nat) (hn : n < 256) :
    encode (.wrb (BitVec.ofNat 8 n)) = BitVec.ofNat 16 (0x6000 + n) := by
  rw [Machine.encode_wrb]
  apply BitVec.eq_of_toNat_eq
  simp
  omega

/-- The middle part of the list is the 256 words of `WRB`. -/
theorem mem_wrbWords_iff (w : Word) :
    w ∈ (List.range 256).map (fun n => BitVec.ofNat 16 (0x6000 + n)) ↔ ∃ b, encode (.wrb b) = w := by
  simp only [List.mem_map, List.mem_range]
  constructor
  · rintro ⟨n, hn, rfl⟩
    exact ⟨BitVec.ofNat 8 n, encode_wrb_ofNat n hn⟩
  · rintro ⟨b, rfl⟩
    refine ⟨b.toNat, b.isLt, ?_⟩
    rw [← encode_wrb_ofNat _ b.isLt, BitVec.ofNat_toNat, BitVec.setWidth_eq]

theorem mem_legalWords_iff (w : Word) : w ∈ legalWords ↔ ∃ i, WellFormed i ∧ encode i = w := by
  rw [legalWords, List.mem_append, List.mem_append, mem_wrbWords_iff]
  constructor
  · rintro ((h | ⟨b, hb⟩) | h)
    · simp only [List.mem_cons, List.not_mem_nil, or_false] at h
      rcases h with rfl | rfl | rfl | rfl | rfl | rfl | rfl
      · exact ⟨.rel .c, rfl, rfl⟩
      · exact ⟨.rel .d, rfl, rfl⟩
      · exact ⟨.low .c, rfl, rfl⟩
      · exact ⟨.low .d, rfl, rfl⟩
      · exact ⟨.rd .d, rfl, rfl⟩
      · exact ⟨.start, rfl, rfl⟩
      · exact ⟨.stop, rfl, rfl⟩
    · exact ⟨.wrb b, rfl, hb⟩
    · simp only [List.mem_cons, List.not_mem_nil, or_false] at h
      rcases h with rfl | rfl
      · exact ⟨.rdb false, rfl, rfl⟩
      · exact ⟨.rdb true, rfl, rfl⟩
  · rintro ⟨i, hwf, rfl⟩
    cases i with
    | rel l => cases l <;> exact .inl (.inl (by decide))
    | low l => cases l <;> exact .inl (.inl (by decide))
    | rd l =>
      cases l with
      | c => exact absurd hwf (by decide)
      | d => exact .inl (.inl (by decide))
    | start => exact .inl (.inl (by decide))
    | stop => exact .inl (.inl (by decide))
    | wrb b => exact .inl (.inr ⟨b, rfl⟩)
    | rdb k => cases k <;> exact .inr (by decide)

theorem wrbWords_mem_range {w : Word}
    (h : w ∈ (List.range 256).map (fun n => BitVec.ofNat 16 (0x6000 + n))) :
    0x6000 ≤ w.toNat ∧ w.toNat < 0x6100 := by
  simp only [List.mem_map, List.mem_range] at h
  obtain ⟨n, hn, rfl⟩ := h
  rw [BitVec.toNat_ofNat]
  omega

/-- The list is in ascending order: its three parts are, and lie above one another. -/
theorem legalWords_pairwise_lt : legalWords.Pairwise (fun v w => v.toNat < w.toNat) := by
  have hfirst : ∀ v ∈ [0x1000#16, 0x1100, 0x2000, 0x2100, 0x3100, 0x4000, 0x5000],
      v.toNat < 0x6000 := by simp
  have hlast : ∀ v ∈ [0x7000#16, 0x7100], 0x7000 ≤ v.toNat := by simp
  simp only [legalWords, List.pairwise_append]
  refine ⟨⟨by simp, ?_, fun v hv w hw => ?_⟩, by simp, fun v hv w hw => ?_⟩
  · rw [List.pairwise_map]
    refine List.pairwise_lt_range.imp_of_mem fun {m n} hm hn hlt => ?_
    rw [List.mem_range] at hm hn
    rw [BitVec.toNat_ofNat, BitVec.toNat_ofNat]
    omega
  · exact (hfirst v hv).trans_le (wrbWords_mem_range hw).1
  · refine lt_of_lt_of_le ?_ (hlast w hw)
    rcases List.mem_append.mp hv with hv | hv
    · exact (hfirst v hv).trans (by decide)
    · exact (wrbWords_mem_range hv).2.trans (by decide)

/-- Settles O4: the listed words are those of the well-formed commands, in ascending order. -/
theorem legalWordsAreExactly265 : Obligations.LegalWordsAreExactly265 := by
  unfold Obligations.LegalWordsAreExactly265
  refine ⟨fun w => ?_, legalWords_pairwise_lt.imp fun hlt heq => ?_, ?_⟩
  · simp only [decode_eq_ok_iff, mem_legalWords_iff, and_comm]
  · exact absurd hlt (by rw [heq]; exact lt_irrefl _)
  · simp [legalWords]

/-! ### The opcode map (R74) -/

theorem tableRow_statement (i : Instr) : Laws.TableRow.Statement i := by
  cases i with
  | rel l => exact Laws.TableRow.rel l
  | low l => exact Laws.TableRow.low l
  | rd l => exact Laws.TableRow.rd l
  | start => exact Laws.TableRow.start
  | stop => exact Laws.TableRow.stop
  | wrb b => exact Laws.TableRow.wrb b
  | rdb k => exact Laws.TableRow.rdb k

/-- Some row of the map selects the word of a well-formed command and bears its mnemonic. -/
theorem exists_row_of_wellFormed {i : Instr} (h : WellFormed i) :
    ∃ r ∈ opcodeTable, r.selects (encode i) = true ∧ r.mnemonic = mnemonicOf i := by
  have hmem : mnemonicOf i
      ∈ (opcodeTable.filter (fun r => r.selects (encode i))).map (fun r => r.mnemonic) := by
    rw [tableRow_statement i h]; exact List.mem_singleton_self _
  obtain ⟨r, hr, hname⟩ := List.mem_map.mp hmem
  obtain ⟨htable, hsel⟩ := List.mem_filter.mp hr
  exact ⟨r, htable, hsel, hname⟩

/-- What a row's test says of each field of the word (R71). -/
theorem OpcodeRow.fields_of_selects {r : OpcodeRow} {w : Word} (h : r.selects w = true) :
    opField w &&& opField r.mask = opField r.pattern ∧
    zField w &&& zField r.mask = zField r.pattern ∧
    (fField w && fField r.mask) = fField r.pattern ∧
    dataField w &&& dataField r.mask = dataField r.pattern := by
  have hand : w &&& r.mask = r.pattern := by simpa [OpcodeRow.selects] using h
  rw [← hand]
  simp [opField, zField, fField, dataField, BitVec.extractLsb'_and]

/-- Every row asks for the whole of `OP` and for `Z = 0`; `F` and `DATA` are asked for where the mask
covers them, `DATA` then being zero. -/
theorem OpcodeRow.selects_fields {r : OpcodeRow} {w : Word} (hr : r ∈ opcodeTable)
    (h : r.selects w = true) :
    opField w = opField r.pattern ∧ zField w = 0 ∧
    (fField r.mask = true → fField w = fField r.pattern) ∧
    (dataField r.mask = BitVec.allOnes 8 → dataField w = 0) := by
  have hrows : ∀ r ∈ opcodeTable, opField r.mask = BitVec.allOnes 4 ∧
      zField r.mask = BitVec.allOnes 3 ∧ zField r.pattern = 0 ∧ dataField r.pattern = 0 := by decide
  obtain ⟨hmaskOp, hmaskZ, hpatternZ, hpatternData⟩ := hrows r hr
  obtain ⟨hop, hz, hf, hdata⟩ := r.fields_of_selects h
  rw [hmaskOp, BitVec.and_allOnes] at hop
  rw [hmaskZ, BitVec.and_allOnes, hpatternZ] at hz
  refine ⟨hop, hz, fun hmask => ?_, fun hmask => ?_⟩
  · rwa [hmask, Bool.and_true] at hf
  · rwa [hmask, BitVec.and_allOnes, hpatternData] at hdata

/-- The rows differ in their `OP`. -/
theorem row_eq_of_opField_eq {r q : OpcodeRow} (hr : r ∈ opcodeTable) (hq : q ∈ opcodeTable)
    (h : opField r.pattern = opField q.pattern) : r = q := by
  have hrows : ∀ r ∈ opcodeTable, ∀ q ∈ opcodeTable,
      opField r.pattern = opField q.pattern → r = q := by decide
  exact hrows r hr q hq h

/-- A selected word has the fields of its row, which are those of the word of a command. -/
theorem exists_encode_of_selects {r : OpcodeRow} {w : Word} (hr : r ∈ opcodeTable)
    (h : r.selects w = true) : ∃ i, encode i = w ∧ WellFormed i := by
  obtain ⟨hop, hz, hf, hdata⟩ := OpcodeRow.selects_fields hr h
  have hop := congrArg BitVec.toNat hop
  simp only [opcodeTable, List.mem_cons, List.not_mem_nil, or_false] at hr
  rcases hr with rfl | rfl | rfl | rfl | rfl | rfl | rfl
  · exact ⟨.rel (lineOfSelect (fField w)), ofFields_eq_of_fields hz hop (by simp) (hdata rfl), rfl⟩
  · exact ⟨.low (lineOfSelect (fField w)), ofFields_eq_of_fields hz hop (by simp) (hdata rfl), rfl⟩
  · exact ⟨.rd .d, ofFields_eq_of_fields hz hop (hf rfl) (hdata rfl), rfl⟩
  · exact ⟨.start, ofFields_eq_of_fields hz hop (hf rfl) (hdata rfl), rfl⟩
  · exact ⟨.stop, ofFields_eq_of_fields hz hop (hf rfl) (hdata rfl), rfl⟩
  · exact ⟨.wrb (dataField w), ofFields_eq_of_fields hz hop (hf rfl) rfl, rfl⟩
  · exact ⟨.rdb (fField w), ofFields_eq_of_fields hz hop rfl (hdata rfl), rfl⟩

/-- Settles O5: a row and a command have the same fields, and the rows differ in `OP`. -/
theorem opcodeRowsDecideDecoding : Obligations.OpcodeRowsDecideDecoding := by
  unfold Obligations.OpcodeRowsDecideDecoding
  refine ⟨fun w i h => ?_, fun w ⟨r, hr, hsel⟩ => ?_, fun w r q hr hq hrw hqw => ?_⟩
  · obtain ⟨rfl, hwf⟩ := encode_of_decode_ok h
    exact exists_row_of_wellFormed hwf
  · obtain ⟨i, hi⟩ := exists_encode_of_selects hr hsel
    exact ⟨i, (decode_eq_ok_iff w i).mpr hi⟩
  · obtain ⟨hopr, -⟩ := OpcodeRow.selects_fields hr hrw
    obtain ⟨hopq, -⟩ := OpcodeRow.selects_fields hq hqw
    exact row_eq_of_opField_eq hr hq (hopr.symm.trans hopq)

end Sys2Proof
end

section
/-! PROOFS. The step, one equation per thing it can meet (R172, R180); then what is said of one step
without following a command through its micro-steps. -/

namespace Sys2Proof.Machine

/-! ### The step at each of its inputs -/

section
variable {s : State} {w : Word} {i : Instr} {r : List Input}

theorem step_of_reset (h : s.inputs = .reset :: r) : step s = .next (resetBlock s.dropInput) := by
  simp [step, fetch, h]

theorem step_of_busy (hrst : s.rst = false) (hbusy : s.busy = true) :
    step s = .next (advance Config.extraWaits s) := by
  rcases hin : s.inputs with _ | ⟨_ | _ | _, rest⟩
  case nil => simp [step, fetch, hin, hbusy]
  case cons.command v => simp [step, fetch, hin, hbusy]
  case cons.partway v k => simp [step, fetch, hin, hbusy]
  case cons.reset => simp [State.rst, hin] at hrst

theorem step_of_nothing (h : s.inputs = []) (hbusy : s.busy = false) : step s = .next (idle s) := by
  simp [step, fetch, h, hbusy]

theorem step_of_command (h : s.inputs = .command w :: r) (hbusy : s.busy = false)
    (hw : decode w = .ok i) : step s = exec i s.dropInput := by
  simp [step, fetch, h, hbusy, hw]

theorem step_of_partway {k : Nat} (h : s.inputs = .partway w k :: r) (hbusy : s.busy = false)
    (hw : decode w = .ok i) : step s = .next (beginCommand Config.extraWaits i k s.dropInput) := by
  simp [step, fetch, h, hbusy, hw]

theorem State.dropInput_eq {x : Input} (h : s.inputs = x :: r) :
    s.dropInput = { s with inputs := r } := by
  simp [State.dropInput, h]

end

/-! ### The obligations -/

/-- Settles O10: a delay records its event and nothing else. -/
theorem waitMicroStep : Obligations.WaitMicroStep := by
  unfold Obligations.WaitMicroStep
  exact fun s => rfl

/-- Settles O14: the decoder finds the line select of 0x3000 clear, and the model gives the term the
effect of that word. -/
theorem rdOfTheClockLineIsIllegal : Obligations.RdOfTheClockLineIsIllegal := by
  unfold Obligations.RdOfTheClockLineIsIllegal
  refine ⟨rfl, rfl, fun s => ?_⟩
  exact ⟨raiseIllegal (encode (.rd .c)) s, rfl, rfl, rfl, rfl, rfl, rfl⟩

/-- Settles O34: the state with the offer used up is `dropInput`. -/
theorem stepRunsTheDecodedCommand : Obligations.StepRunsTheDecodedCommand := by
  unfold Obligations.StepRunsTheDecodedCommand
  intro s w i rest hbusy hin hw
  rw [step_of_command hin hbusy hw, State.dropInput_eq hin]

/-- Settles O38: the port holds nothing outside its pulse, and an idle step is `idle`. -/
theorem rspReadOutsideItsPulseIsRefused : Obligations.RspReadOutsideItsPulseIsRefused := by
  unfold Obligations.RspReadOutsideItsPulseIsRefused
  exact ⟨fun s => readRsp_of_rspValid_false, rfl, fun s hin hbusy => step_of_nothing hin hbusy⟩

/-- Settles O39: every input leads to an update of the state, and what the decoder accepts runs as a
whole command. -/
theorem noStepFaultsOrRefuses : Obligations.NoStepFaultsOrRefuses := by
  unfold Obligations.NoStepFaultsOrRefuses
  intro s
  rcases fetch_cases s with ⟨r, -, hf⟩ | ⟨-, -, hf⟩ | ⟨-, -, hf⟩ | ⟨w, r, i, -, -, hw, hf⟩ |
    ⟨w, k, r, i, -, -, -, hf⟩ | ⟨w, e, -, -, -, hf⟩
  case inr.inr.inr.inl =>
    obtain ⟨-, hwf⟩ := encode_of_decode_ok hw
    exact ⟨_, by rw [step, hf]; exact exec_eq_runCommand _ hwf⟩
  all_goals exact ⟨_, by rw [step, hf]⟩

/-- Settles O44: the step is `resetBlock`, which leaves the host's inputs and an empty trace, on which
the phase is that of reset. -/
theorem resetReleasesTheLines : Obligations.ResetReleasesTheLines := by
  unfold Obligations.ResetReleasesTheLines
  intro s rest hin
  have hleft : (resetBlock s.dropInput).inputs = rest := by simp [hin]
  refine ⟨_, step_of_reset hin, rfl, rfl, rfl, rfl, rfl, rfl, hleft, busPhase_nil_eq_idle, ?_⟩
  rintro w i rest' rfl hw
  rw [step_of_command hleft rfl hw, State.dropInput_eq hleft]

/-- Settles O42: by the cases of `runEnded`, then of the fault mark. -/
theorem markedRunIsNotSuccessful : Obligations.MarkedRunIsNotSuccessful := by
  unfold Obligations.MarkedRunIsNotSuccessful
  refine fun s => ⟨fun hresets hbusy => ?_, fun hmore => ?_⟩
  · have hend : s.runEnded = true := s.runEnded_iff.mpr ⟨hresets, hbusy⟩
    refine ⟨fun m hm => by simp [verdict, hend, hm], fun hm => ?_⟩
    exact (verdict_eq_next_iff s _).mpr ⟨hend, hm, by rw [observe, hm]⟩
  · have hend : ¬ s.runEnded = true := by
      rw [State.runEnded_iff]
      rintro ⟨hresets, hbusy⟩
      rcases hmore with ⟨x, hx, hne⟩ | hbusy'
      · exact hne (hresets x hx)
      · simp [hbusy] at hbusy'
    exact if_neg hend

end Sys2Proof.Machine
end

section
/-! PROOFS. A command one micro-step at a time (R28, R58, R60, R172): after `k` micro-steps the block
stands where the first `k` entries of the list lead, and after the last it is where the whole command
leads. -/

namespace Sys2Proof.Machine

theorem microCount_pos {i : Instr} (h : WellFormed i) : 0 < microCount i := by
  cases i with
  | rd l =>
    cases l with
    | c => exact absurd h (by decide)
    | d => exact Nat.one_pos
  | wrb b => simp [microCount, program, wrbProgram, wrbAck]
  | _ => exact Nat.succ_pos _

/-! ### Between acceptance and completion -/

section
variable (slack : Slack) (i : Instr) (s : State)

/-- The block after acceptance and the first `k` micro-steps, before any completion. -/
def midCommand (k : Nat) : State :=
  runMicros (delaysOf slack i) ((program i).take k) (accept i s)

theorem midCommand_seq {k : Nat} (hk : k ≤ microCount i) :
    ∃ q, (midCommand slack i s k).seq = some q ∧ q.instr = i ∧ q.pos = k := by
  refine ⟨_, by rw [midCommand, runMicros_seq, accept_seq, Option.map_some], by simp, ?_⟩
  rw [storeAll_pos _ _ _ (readLevels_length ..), List.length_take_of_le hk, Nat.zero_add]

@[simp] theorem midCommand_responses (k : Nat) :
    (midCommand slack i s k).responses = s.responses := by simp [midCommand]

@[simp] theorem midCommand_rsp (k : Nat) : (midCommand slack i s k).rsp = none := by
  simp [midCommand]

@[simp] theorem midCommand_inputs (k : Nat) : (midCommand slack i s k).inputs = s.inputs := by
  simp [midCommand]

theorem midCommand_busy {k : Nat} (hk : k ≤ microCount i) :
    (midCommand slack i s k).busy = true := by
  obtain ⟨q, hq, -, -⟩ := midCommand_seq slack i s hk
  rw [State.busy, hq, Option.isSome_some]

theorem complete_midCommand :
    complete (midCommand slack i s (microCount i)) = runCommand slack i (program i) s := by
  rw [midCommand, microCount, List.take_length, runCommand]

/-- One micro-step of the sequencer goes to the next place, and completes the command at the end. -/
theorem advance_midCommand {k : Nat} (hk : k < microCount i) :
    advance slack (midCommand slack i s k)
      = if microCount i ≤ k + 1 then complete (midCommand slack i s (k + 1))
        else midCommand slack i s (k + 1) := by
  obtain ⟨q, hq, rfl, rfl⟩ := midCommand_seq slack i s hk.le
  have hm : (program q.instr)[q.pos]? = some (program q.instr)[q.pos] :=
    List.getElem?_eq_getElem hk
  have hnext : midCommand slack q.instr s (q.pos + 1)
      = microStep (delaysOf slack q.instr) (program q.instr)[q.pos]
          (midCommand slack q.instr s q.pos) := by
    rw [midCommand, List.take_succ_eq_append_getElem hk, runMicros_append]
    rfl
  rw [advance_running slack hq hm, hnext]
  rfl

theorem beginCommand_of_lt {k : Nat} (hk : k < microCount i) :
    beginCommand slack i k s = midCommand slack i s k := by
  induction k with
  | zero => rfl
  | succ k ih =>
    rw [beginCommand, advanceMany_succ, ← beginCommand, ih (Nat.lt_of_succ_lt hk),
      advance_midCommand _ _ _ (Nat.lt_of_succ_lt hk), if_neg (Nat.not_le.mpr hk)]

/-- What runs no command stays as it is. -/
theorem advance_of_seq_none {t : State} (h : t.seq = none) : advance slack t = t := by
  simp [advance, h]

/-- With its micro-steps all done the command is complete, and further ones find nothing to do. -/
theorem beginCommand_of_ge {k : Nat} (hi : WellFormed i) (hk : microCount i ≤ k) :
    beginCommand slack i k s = runCommand slack i (program i) s := by
  induction k, hk using Nat.le_induction with
  | base =>
    obtain ⟨n, hn⟩ := Nat.exists_eq_succ_of_ne_zero (microCount_pos hi).ne'
    have hlt : n < microCount i := hn ▸ Nat.lt_succ_self n
    rw [← complete_midCommand, hn, beginCommand, advanceMany_succ, ← beginCommand,
      beginCommand_of_lt _ _ _ hlt, advance_midCommand _ _ _ hlt, if_pos hn.le]
  | succ k _ ih =>
    rw [beginCommand, advanceMany_succ, ← beginCommand, ih,
      advance_of_seq_none _ (runCommand_seq ..)]

end

theorem exec_eq_beginCommand {i : Instr} (hi : WellFormed i) (s : State) :
    exec i s = .next (beginCommand Config.extraWaits i (microCount i) s) := by
  rw [exec_eq_runCommand s hi, beginCommand_of_ge _ _ _ hi le_rfl]

/-- Settles O35: the whole command is all its micro-steps, and before the last the block is where a
part of the list leads. -/
theorem commandIsItsMicroSteps : Obligations.CommandIsItsMicroSteps := by
  unfold Obligations.CommandIsItsMicroSteps
  refine fun i s hi => ⟨exec_eq_beginCommand hi s, fun k hk => ?_⟩
  rw [beginCommand_of_lt _ _ _ hk]
  refine ⟨midCommand_busy _ _ _ hk.le, midCommand_responses .., ?_⟩
  rw [State.rspValid, midCommand_rsp, Option.isSome_none]

/-- Settles O45: the first step ends inside the command with the reset next, and the reset clears the
sequencing state. -/
theorem resetAbandonsTheCommand : Obligations.ResetAbandonsTheCommand := by
  unfold Obligations.ResetAbandonsTheCommand
  intro s w i k rest hbusy hin hw hk
  have hstep := step_of_partway hin hbusy hw
  rw [beginCommand_of_lt _ _ _ hk] at hstep
  have hnext : (midCommand Config.extraWaits i s.dropInput k).inputs = .reset :: rest := by
    simp [hin]
  refine ⟨_, _, hstep, midCommand_busy _ _ _ hk.le, midCommand_responses .., ?_,
    step_of_reset hnext, rfl, rfl, rfl, rfl, rfl⟩
  rw [State.rspValid, midCommand_rsp, Option.isSome_none]

/-! ### A busy block (R172) -/

/-- A micro-step of a running command, before any completion. -/
theorem microStep_seq_of_running {s : State} {q : Running} (slack : Slack) (m : Micro)
    (hq : s.seq = some q) : (microStep slack m s).seq = some (q.after m s.sampleLevel) := by
  rw [microStep_seq, hq, Option.map_some, storeAll_one]

@[simp] theorem Running.after_instr (q : Running) (m : Micro) (v : Level) :
    (q.after m v).instr = q.instr := by
  rw [← storeAll_one, storeAll_instr]

/-- A micro-step is its effect, then the implementation's further delays. -/
theorem microStep_trace_eq_doMicro (slack : Slack) (m : Micro) (s : State) :
    (microStep slack m s).trace = (doMicro m s).trace
      ++ List.replicate (slack (doMicro m s).earlier (doMicro m s).trace) .wait := rfl

/-- Settles O36: the step is `advance`, that is the micro-step, and its completion exactly at the end of
the list. -/
theorem busyBlockHoldsTheOffer : Obligations.BusyBlockHoldsTheOffer := by
  unfold Obligations.BusyBlockHoldsTheOffer
  intro s q m hq hrst hm
  have hbusy : s.busy = true := by rw [State.busy, hq, Option.isSome_some]
  have hseq := microStep_seq_of_running (delaysOf Config.extraWaits q.instr) m hq
  have hstep := step_of_busy hrst hbusy
  rw [advance_running _ hq hm] at hstep
  have hdelays : (∃ l, q.instr = .rel l ∨ q.instr = .low l ∨ q.instr = .rd l) →
      delaysOf Config.extraWaits q.instr = noDelays := by
    rintro ⟨l, h | h | h⟩ <;> rw [h] <;> rfl
  refine ⟨_, s.sampleLevel, hstep, fun a rest => State.sampleLevel_cons, State.sampleLevel_nil, ?_⟩
  split
  · next hend =>
    refine ⟨by simp, by simp, by simp, complete_dirs _, complete_answers _,
      ⟨_, (complete_trace _).trans (microStep_trace_eq_doMicro ..), fun h => by rw [hdelays h]; rfl⟩,
      fun hlt => absurd hend (Nat.not_le.mpr hlt), fun _ => ?_⟩
    rw [complete_some hseq]
    simp
  · next hend =>
    refine ⟨by simp, by simp, by simp, rfl, rfl,
      ⟨_, microStep_trace_eq_doMicro .., fun h => by rw [hdelays h]; rfl⟩,
      fun _ => ⟨hseq, by simp, by simp, by simp⟩, fun heq => absurd heq.ge hend⟩

/-! ### The pulse (R32) -/

/-- No response between `s` and `t`, and none on the port. -/
def Silent (s t : State) : Prop :=
  t.rsp = none ∧ t.responses.length ≤ s.responses.length

/-- One response between `s` and `t`, on the port of a block that is not busy. -/
def Completed (s t : State) : Prop :=
  t.busy = false ∧ ∃ r op, t.responses = s.responses ++ [r] ∧ t.rsp = some (rspWord op r)

theorem completed_complete {s : State} {q : Running} (hq : s.seq = some q) :
    Completed s (complete s) := by
  rw [complete_some hq]
  exact ⟨rfl, _, _, rfl, rfl⟩

theorem completed_runCommand (slack : Slack) (i : Instr) (ms : List Micro) (s : State) :
    Completed s (runCommand slack i ms s) := by
  rw [runCommand_eq]
  exact ⟨rfl, _, _, by simp, rfl⟩

theorem advance_silent_or_completed {s : State} (slack : Slack) (hs : s.SequencerSound)
    (hbusy : s.busy = true) : Silent s (advance slack s) ∨ Completed s (advance slack s) := by
  obtain ⟨q, hq⟩ := Option.isSome_iff_exists.mp hbusy
  obtain ⟨-, hpos, hrsp⟩ := hs q hq
  have hm : (program q.instr)[q.pos]? = some (program q.instr)[q.pos] :=
    List.getElem?_eq_getElem hpos
  rw [advance_running slack hq hm]
  split
  · right
    simpa [Completed] using completed_complete (microStep_seq_of_running _ _ hq)
  · left
    exact ⟨by simp [hrsp], by simp⟩

theorem step_silent_or_completed {s t : State} (hs : s.SequencerSound) (h : step s = .next t) :
    Silent s t ∨ Completed s t := by
  rcases step_cases h with ⟨r, -, rfl⟩ | ⟨-, hbusy, rfl⟩ | ⟨-, -, rfl⟩ | ⟨w, r, i, -, -, hw, hexec⟩ |
    ⟨w, k, r, i, -, -, hw, rfl⟩ | ⟨w, e, -, hbusy, -, rfl⟩
  · exact .inl ⟨rfl, Nat.zero_le _⟩
  · exact advance_silent_or_completed _ hs hbusy
  · exact .inl ⟨rfl, le_rfl⟩
  · obtain ⟨-, hi⟩ := encode_of_decode_ok hw
    rw [exec_eq_runCommand _ hi] at hexec
    injection hexec with hexec
    exact .inr (hexec ▸ completed_runCommand _ _ _ s.dropInput)
  · obtain ⟨-, hi⟩ := encode_of_decode_ok hw
    rcases lt_or_ge k (microCount i) with hk | hk
    · rw [beginCommand_of_lt _ _ _ hk]
      exact .inl ⟨midCommand_rsp .., by simp⟩
    · rw [beginCommand_of_ge _ _ _ hi hk]
      exact .inr (completed_runCommand _ _ _ s.dropInput)
  · exact .inr ⟨hbusy, _, _, rfl, rfl⟩

/-- Settles O37: a step is silent or completes one command. -/
theorem pulseExactlyAtCompletion : Obligations.PulseExactlyAtCompletion := by
  unfold Obligations.PulseExactlyAtCompletion
  intro s hs
  obtain ⟨t, ht⟩ := noStepFaultsOrRefuses s
  refine ⟨t, ht, ?_⟩
  rcases step_silent_or_completed hs ht with ⟨hrsp, hlen⟩ | ⟨hbusy, r, op, hresp, hrsp⟩
  · have hvalid : t.rspValid = false := by rw [State.rspValid, hrsp, Option.isSome_none]
    rw [hvalid]
    exact ⟨by simp; omega, by simp⟩
  · refine ⟨?_, fun _ => ⟨hbusy, r, op, hresp, hrsp⟩⟩
    simp [State.rspValid, hrsp, hresp]

end Sys2Proof.Machine
end

section
/-! PROOFS. What every step keeps (R28, R33 to R35, R104, R167): a property is looked at once per part a
step is made of, and each invariant is that look at its own parts. -/

namespace Sys2Proof.Machine

/-! ### From the parts of a step to the step -/

/-- `P` is kept by each thing a step is made of, resets aside. -/
structure StepParts (P : State → Prop) : Prop where
  dropInput : ∀ s, P s → P s.dropInput
  idle : ∀ s, P s → P (idle s)
  advance : ∀ slack s, P s → P (advance slack s)
  accept : ∀ i s, WellFormed i → s.busy = false → P s → P (accept i s)
  raiseIllegal : ∀ w s, illegalWord w = true → s.busy = false → P s → P (raiseIllegal w s)

section
variable {P : State → Prop} (hP : StepParts P)
include hP

theorem StepParts.beginCommand {i : Instr} {s : State} (slack : Slack) (k : Nat) (hi : WellFormed i)
    (hbusy : s.busy = false) (hs : P s) : P (beginCommand slack i k s) :=
  advanceMany_keeps P slack (hP.advance slack) k _ (hP.accept i s hi hbusy hs)

/-- A whole command is acceptance and micro-steps, so it needs no part of its own. -/
theorem StepParts.step {s t : State} (hreset : s.rst = true → ∀ u, P (resetBlock u)) (hs : P s)
    (h : step s = .next t) : P t := by
  have hdrop := hP.dropInput s hs
  rcases step_cases h with ⟨r, hin, rfl⟩ | ⟨-, -, rfl⟩ | ⟨-, -, rfl⟩ | ⟨w, r, i, -, hbusy, hw, hexec⟩ |
    ⟨w, k, r, i, -, hbusy, hw, rfl⟩ | ⟨w, e, -, hbusy, hw, rfl⟩
  · exact hreset (by simp [State.rst, hin]) _
  · exact hP.advance _ s hs
  · exact hP.idle s hs
  · obtain ⟨-, hi⟩ := encode_of_decode_ok hw
    rw [exec_eq_beginCommand hi] at hexec
    injection hexec with hexec
    exact hexec ▸ hP.beginCommand _ _ hi hbusy hdrop
  · obtain ⟨-, hi⟩ := encode_of_decode_ok hw
    exact hP.beginCommand _ _ hi hbusy hdrop
  · exact hP.raiseIllegal w _ ((illegalWord_iff_decode_illegal w).mpr ⟨e, hw⟩) hbusy hdrop

end

/-- What micro-steps and completions keep, the sequencer keeps. -/
theorem advance_keeps {P : State → Prop} (hmicro : ∀ slack m s, P s → P (microStep slack m s))
    (hcomplete : ∀ s, P s → P (complete s)) (slack : Slack) (s : State) (hs : P s) :
    P (advance slack s) := by
  rcases advance_cases slack s with ⟨-, h⟩ | ⟨q, m, -, -, h⟩ | ⟨q, -, -, h⟩
  · rwa [h]
  · rw [h, completeAtEnd]
    split
    · exact hcomplete _ (hmicro _ m s hs)
    · exact hmicro _ m s hs
  · rw [h]
    exact hcomplete s hs

/-! ### The trace leads to the directions (R104) -/

/-- An `Issue` says nothing of the directions. -/
theorem traceLeadsToDirs_of_issue {s t : State} {w : Word} (htrace : t.trace = s.trace ++ [.issue w])
    (hdirs : t.dirs = s.dirs) (hs : s.TraceLeadsToDirs) : t.TraceLeadsToDirs := by
  rw [State.TraceLeadsToDirs, htrace, hdirs, replay_append]
  exact hs

theorem stepParts_traceLeadsToDirs : StepParts State.TraceLeadsToDirs where
  dropInput _ hs := hs
  idle _ hs := hs
  advance := advance_keeps (fun slack m s hs => microStep_replay slack m s _ hs) fun s hs => by
    rw [State.TraceLeadsToDirs, complete_trace, complete_dirs]
    exact hs
  accept i s _ _ := traceLeadsToDirs_of_issue rfl rfl
  raiseIllegal w s _ _ := traceLeadsToDirs_of_issue rfl rfl

/-- Settles O51: a micro-step records what it does to the directions, and nothing else changes them. -/
theorem stepKeepsTraceLeadingToDirs : Obligations.StepKeepsTraceLeadingToDirs := by
  unfold Obligations.StepKeepsTraceLeadingToDirs
  exact fun s t hs h => stepParts_traceLeadsToDirs.step (fun _ _ => rfl) hs h

/-! ### The books (R33, R35, R87) -/

/-- Is the event the acceptance of a word? -/
def Event.isIssue : Event → Bool
  | .issue _ => true
  | .rel _ => false
  | .low _ => false
  | .rd _ => false
  | .wait => false

theorem State.booksBalance_iff (s : State) :
    s.BooksBalance ↔ s.responses.length = s.index ∧
      s.trace.countP Event.isIssue = s.index + s.busy.toNat := by
  have hfun : Event.isIssue = fun e => match e with | .issue _ => true | _ => false := by
    funext e
    cases e <;> rfl
  rw [hfun]
  exact Iff.rfl

/-- A micro-step accepts no word. -/
theorem microStep_issueCount (slack : Slack) (m : Micro) (s : State) :
    (microStep slack m s).trace.countP Event.isIssue = s.trace.countP Event.isIssue := by
  obtain ⟨n, hn⟩ := microStep_trace slack m s
  have hmicro : (microEvents [m] [s.sampleLevel]).countP Event.isIssue = 0 := by cases m <;> rfl
  have hwait : (List.replicate n Event.wait).countP Event.isIssue = 0 := by
    simp [Event.isIssue]
  rw [hn, List.countP_append, List.countP_append, hmicro, hwait, Nat.add_zero]

/-- What was accepted is then answered: a completion trades `busy` for a response. -/
theorem booksBalance_complete {s : State} (hs : s.BooksBalance) : (complete s).BooksBalance := by
  cases hq : s.seq with
  | none => rwa [complete_none hq]
  | some q =>
    rw [State.booksBalance_iff] at hs ⊢
    obtain ⟨hlen, hcount⟩ := hs
    rw [complete_some hq]
    simpa [State.busy, hq, hlen] using hcount

theorem stepParts_booksBalance : StepParts State.BooksBalance where
  dropInput _ hs := hs
  idle _ hs := hs
  advance := advance_keeps
    (fun slack m s hs => by
      rw [State.booksBalance_iff] at hs ⊢
      simpa [microStep_issueCount] using hs)
    fun _ => booksBalance_complete
  accept i s _ hbusy hs := by
    rw [State.booksBalance_iff] at hs ⊢
    have hbusy' : (accept i s).busy = true := rfl
    simpa [Event.isIssue, hbusy, hbusy'] using hs
  raiseIllegal w s _ hbusy hs := by
    rw [State.booksBalance_iff] at hs ⊢
    have hbusy' : (raiseIllegal w s).busy = false := hbusy
    simpa [Event.isIssue, hbusy, hbusy'] using hs

/-- Settles O52: acceptance adds the `Issue` and raises `busy`, completion adds the response and the
index and lowers it; an illegal word does both at once. -/
theorem stepKeepsBooks : Obligations.StepKeepsBooks := by
  unfold Obligations.StepKeepsBooks
  exact fun s t hs h => stepParts_booksBalance.step (fun _ _ => ⟨rfl, rfl⟩) hs h

/-! ### The sequencer (R28, R32, R76) -/

theorem sequencerSound_of_seq_none {s : State} (h : s.seq = none) : s.SequencerSound := by
  intro q hq
  rw [h] at hq
  cases hq

/-- A running command with micro-steps left does one: it has one left again, or completes. -/
theorem sequencerSound_advance (slack : Slack) {s : State} (hs : s.SequencerSound) :
    (advance slack s).SequencerSound := by
  cases hq : s.seq with
  | none => rwa [advance_of_seq_none _ hq]
  | some q =>
    obtain ⟨hi, hpos, hrsp⟩ := hs q hq
    have hm : (program q.instr)[q.pos]? = some (program q.instr)[q.pos] :=
      List.getElem?_eq_getElem hpos
    have hseq := microStep_seq_of_running (delaysOf slack q.instr) (program q.instr)[q.pos] hq
    rw [advance_running slack hq hm]
    split
    · rw [complete_some hseq]
      exact sequencerSound_of_seq_none rfl
    · next hleft =>
      intro q' hq'
      obtain rfl : q.after _ _ = q' := Option.some.inj (hseq.symm.trans hq')
      rw [← storeAll_one, storeAll_instr, storeAll_one_pos]
      exact ⟨hi, Nat.not_le.mp hleft, by rw [microStep_rsp, hrsp]⟩

theorem stepParts_sequencerSound : StepParts State.SequencerSound where
  dropInput _ hs := hs
  idle s hs q hq := by
    obtain ⟨hi, hpos, -⟩ := hs q hq
    exact ⟨hi, hpos, rfl⟩
  advance slack _ := sequencerSound_advance slack
  accept i s hi _ _ q hq := by
    obtain rfl := Option.some.inj hq
    exact ⟨hi, microCount_pos hi, rfl⟩
  raiseIllegal w s _ hbusy _ :=
    sequencerSound_of_seq_none (Option.isNone_iff_eq_none.mp (by simpa [State.busy] using hbusy))

/-- Settles O53: only well-formed commands are accepted, each has a first micro-step, and the last one
completes it. -/
theorem stepKeepsSequencerSound : Obligations.StepKeepsSequencerSound := by
  unfold Obligations.StepKeepsSequencerSound
  exact fun s t hs h => stepParts_sequencerSound.step
    (fun _ _ => sequencerSound_of_seq_none rfl) hs h

/-! ### The fault mark (R34, R162, R167) -/

/-- No command of the block completes with an illegal response. -/
theorem markOf_responseOf (q : Running) : markOf (responseOf q) = none := by
  obtain ⟨i, pos, shift, sample⟩ := q
  cases i <;> rfl

/-- Marks are those of the responses, so what leaves both alone keeps them together. -/
theorem markSound_congr {s t : State} (hfault : t.fault = s.fault)
    (hmarks : t.responses.filterMap markOf = s.responses.filterMap markOf) (hs : s.MarkSound) :
    t.MarkSound := by
  unfold State.MarkSound
  rwa [hfault, hmarks]

theorem complete_marks (s : State) :
    (complete s).responses.filterMap markOf = s.responses.filterMap markOf := by
  cases hq : s.seq with
  | none => rw [complete_none hq]
  | some q => simp [complete_some hq, markOf_responseOf]

theorem stepParts_markSound : StepParts State.MarkSound where
  dropInput _ hs := hs
  idle _ hs := hs
  advance := advance_keeps
    (fun slack m s => markSound_congr (microStep_fault ..) (by rw [microStep_responses]))
    fun s => markSound_congr (complete_fault s) (complete_marks s)
  accept i s _ _ hs := hs
  raiseIllegal w s hw _ _ := by
    refine ⟨by simp [markOf], fun m hm => ?_⟩
    obtain rfl := Option.some.inj hm
    exact hw

/-- Settles O54: the mark is written with its illegal response, and no other response is illegal. -/
theorem stepKeepsMarkSound : Obligations.StepKeepsMarkSound := by
  unfold Obligations.StepKeepsMarkSound
  exact fun s t hs h => stepParts_markSound.step (fun _ _ => ⟨rfl, fun _ hm => by cases hm⟩) hs h

theorem stepParts_faultIsSome : StepParts (fun s => s.fault.isSome = true) where
  dropInput _ hs := hs
  idle _ hs := hs
  advance := advance_keeps (fun slack m s hs => by rwa [microStep_fault])
    fun s hs => by rwa [complete_fault]
  accept i s _ _ hs := hs
  raiseIllegal w s _ _ _ := rfl

/-- Settles O41: only a reset clears the mark. -/
theorem faultMarkIsSticky : Obligations.FaultMarkIsSticky := by
  unfold Obligations.FaultMarkIsSticky
  intro s hrst
  obtain ⟨t, ht⟩ := noStepFaultsOrRefuses s
  refine ⟨t, ht, fun hs => ?_⟩
  exact stepParts_faultIsSome.step (fun h => by simp [hrst] at h) hs ht

/-- Settles O55: the reset state has an empty trace, no response, no running command and no mark. -/
theorem invariantsHoldAtReset : Obligations.InvariantsHoldAtReset := by
  unfold Obligations.InvariantsHoldAtReset
  exact ⟨rfl, ⟨rfl, rfl⟩, sequencerSound_of_seq_none rfl, rfl, fun _ hm => by cases hm⟩

end Sys2Proof.Machine
end

section
/-! PROOFS. Env's answers are read by no one but the samples (R160): two blocks alike in all else stay
alike through everything a step is made of. -/

namespace Sys2Proof.Machine

/-- The line trace without the levels the samples took. -/
def shape (tr : Trace) : Trace := (lineTrace tr).map Event.eraseLevel

@[simp] theorem shape_append (a b : Trace) : shape (a ++ b) = shape a ++ shape b := by
  simp [shape]

/-- Where the sequencer stands: the running command and its position, without what was sampled. -/
def State.stage (s : State) : Option (Instr × Nat) := s.seq.map (fun q => (q.instr, q.pos))

theorem State.stage_eq_none {s : State} : s.stage = none ↔ s.seq = none := Option.map_eq_none_iff

theorem State.busy_eq_stage (s : State) : s.busy = s.stage.isSome := by
  simp [State.busy, State.stage]

/-- The states differ at most in samples, in delays, in Env, and in the responses they gave. -/
structure AlikeButSamples (s u : State) : Prop where
  dirs : s.dirs = u.dirs
  stage : s.stage = u.stage
  fault : s.fault = u.fault
  index : s.index = u.index
  inputs : s.inputs = u.inputs
  shape : shape s.trace = shape u.trace

namespace AlikeButSamples

section
variable {s u : State} (h : AlikeButSamples s u)
include h

theorem busy : s.busy = u.busy := by rw [State.busy_eq_stage, State.busy_eq_stage, h.stage]

theorem dropInput : AlikeButSamples s.dropInput u.dropInput :=
  { h with inputs := congrArg List.tail h.inputs }

theorem resetBlock : AlikeButSamples (resetBlock s) (resetBlock u) :=
  ⟨rfl, rfl, rfl, rfl, h.inputs, rfl⟩

theorem idle : AlikeButSamples (idle s) (idle u) := { h with }

theorem accept (i : Instr) : AlikeButSamples (accept i s) (accept i u) :=
  { h with stage := rfl, shape := by simp [h.shape] }

theorem raiseIllegal (w : Word) : AlikeButSamples (raiseIllegal w s) (raiseIllegal w u) :=
  { h with fault := rfl, index := congrArg (· + 1) h.index, shape := by simp [h.shape] }

/-- A sample shows in the trace only as its level. -/
theorem microStep (slack : Slack) (m : Micro) :
    AlikeButSamples (microStep slack m s) (microStep slack m u) where
  dirs := by rw [microStep_dirs, microStep_dirs, h.dirs]
  stage := by
    have hstage : ∀ t : State, (Machine.microStep slack m t).stage
        = t.stage.map (fun p => (p.1, p.2 + 1)) := fun t => by
      rw [State.stage, microStep_seq, State.stage, Option.map_map, Option.map_map]
      congr 1
      funext q
      simp
    rw [hstage, hstage, h.stage]
  fault := by rw [microStep_fault, microStep_fault, h.fault]
  index := by rw [microStep_index, microStep_index, h.index]
  inputs := by rw [microStep_inputs, microStep_inputs, h.inputs]
  shape := by
    have hevent : ∀ v, (lineTrace (microEvents [m] [v])).map Event.eraseLevel
        = (lineTrace (microEvents [m] [false])).map Event.eraseLevel := by
      intro v
      cases m <;> rfl
    have hshape := h.shape
    unfold Machine.shape at hshape ⊢
    rw [microStep_lineTrace, microStep_lineTrace, List.map_append, List.map_append, hshape, hevent,
      hevent u.sampleLevel]

theorem complete : AlikeButSamples (complete s) (complete u) := by
  have hstage := h.stage
  cases hs : s.seq with
  | none =>
    rw [State.stage_eq_none.mpr hs, eq_comm, State.stage_eq_none] at hstage
    rw [complete_none hs, complete_none hstage]
    exact h
  | some q =>
    obtain ⟨p, hu, -⟩ := Option.map_eq_some_iff.mp (hstage.symm.trans (by rw [State.stage, hs]; rfl))
    rw [complete_some hs, complete_some hu]
    exact { h with stage := rfl, index := congrArg (· + 1) h.index }

theorem completeAtEnd : AlikeButSamples (completeAtEnd s) (completeAtEnd u) := by
  have hend : ∀ t : State, t.atEnd
      = (t.stage.elim false fun p => decide ((program p.1).length ≤ p.2)) := fun t => by
    unfold State.atEnd State.stage
    cases t.seq <;> rfl
  unfold Machine.completeAtEnd
  rw [hend, hend, h.stage]
  split
  · exact h.complete
  · exact h

theorem advance (slack : Slack) : AlikeButSamples (advance slack s) (advance slack u) := by
  have hstage := h.stage
  cases hs : s.seq with
  | none =>
    rw [State.stage_eq_none.mpr hs, eq_comm, State.stage_eq_none] at hstage
    rw [advance_of_seq_none _ hs, advance_of_seq_none _ hstage]
    exact h
  | some q =>
    obtain ⟨p, hu, hp⟩ :=
      Option.map_eq_some_iff.mp (hstage.symm.trans (by rw [State.stage, hs]; rfl))
    obtain ⟨hinstr, hpos⟩ := Prod.mk.inj hp
    unfold Machine.advance
    rw [hs, hu]
    simp only [hinstr, hpos]
    split
    · exact (h.microStep _ _).completeAtEnd
    · exact h.complete

theorem beginCommand (slack : Slack) (i : Instr) (k : Nat) :
    AlikeButSamples (beginCommand slack i k s) (beginCommand slack i k u) := by
  unfold Machine.beginCommand
  induction k with
  | zero => exact h.accept i
  | succ k ih =>
    rw [advanceMany_succ, advanceMany_succ]
    exact ih.advance slack

/-- Alike blocks meet the same input and answer alike. -/
theorem step : ∃ t v, step s = .next t ∧ step u = .next v ∧ AlikeButSamples t v := by
  have hin := h.inputs
  have hbusy := h.busy
  rcases fetch_cases s with ⟨r, hs, -⟩ | ⟨hrst, hb, -⟩ | ⟨hs, hb, -⟩ | ⟨w, r, i, hs, hb, hw, -⟩ |
    ⟨w, k, r, i, hs, hb, hw, -⟩ | ⟨w, e, hcmd, hb, hw, -⟩
  · exact ⟨_, _, step_of_reset hs, step_of_reset (hin ▸ hs), h.dropInput.resetBlock⟩
  · have hrst' : u.rst = false := by rwa [State.rst, ← hin]
    exact ⟨_, _, step_of_busy hrst hb, step_of_busy hrst' (hbusy ▸ hb), h.advance _⟩
  · exact ⟨_, _, step_of_nothing hs hb, step_of_nothing (hin ▸ hs) (hbusy ▸ hb), h.idle⟩
  · obtain ⟨-, hi⟩ := encode_of_decode_ok hw
    exact ⟨_, _, (step_of_command hs hb hw).trans (exec_eq_beginCommand hi _),
      (step_of_command (hin ▸ hs) (hbusy ▸ hb) hw).trans (exec_eq_beginCommand hi _),
      h.dropInput.beginCommand _ _ _⟩
  · exact ⟨_, _, step_of_partway hs hb hw, step_of_partway (hin ▸ hs) (hbusy ▸ hb) hw,
      h.dropInput.beginCommand _ _ _⟩
  · have hcmd' : u.cmd = some w := by rwa [State.cmd, ← hin]
    have hw' := (illegalWord_iff_decode_illegal w).mpr ⟨e, hw⟩
    exact ⟨_, _, step_of_illegalWord hcmd hb hw', step_of_illegalWord hcmd' (hbusy ▸ hb) hw',
      h.dropInput.raiseIllegal w⟩

end

end AlikeButSamples

/-- Settles O33: the two states are alike to begin with. -/
theorem envAnswersChangeOnlySamples : Obligations.EnvAnswersChangeOnlySamples := by
  unfold Obligations.EnvAnswersChangeOnlySamples
  intro s as
  have h : AlikeButSamples s { s with answers := as } := ⟨rfl, rfl, rfl, rfl, rfl, rfl⟩
  obtain ⟨t, u, hs, hu, htu⟩ := h.step
  exact ⟨t, u, hs, hu, htu.dirs, htu.fault, htu.index, htu.inputs, htu.busy, htu.shape⟩

end Sys2Proof.Machine
end

section
/-! PROOFS. What holds of every command from every state (R34, R57, R87, R121): its frame, its response,
its samples, and how little further delays matter. -/

namespace Sys2Proof.Machine

/-! ### The frame (R34, R58) -/

theorem issue_notMem_microEvents (w : Word) (ms : List Micro) (vs : List Level) :
    .issue w ∉ microEvents ms vs := by
  induction ms, vs using microEvents.induct with
  | case1 vs => simp [microEvents]
  | case2 l ms vs ih => simp [microEvents, ih]
  | case3 l ms vs ih => simp [microEvents, ih]
  | case4 ms vs ih => simp [microEvents, ih]
  | case5 dst ms v vs ih => simp [microEvents, ih]
  | case6 dst ms => simp [microEvents]

theorem mem_lineTrace_iff (e : Event) (tr : Trace) : e ∈ lineTrace tr ↔ e ∈ tr ∧ e ≠ .wait := by
  simp [lineTrace]

/-- Further delays bring no event but `Wait`. -/
theorem WithExtraDelays.mem_must {must evs : Trace} (h : WithExtraDelays must evs) {e : Event}
    (he : e ∈ evs) (hne : e ≠ .wait) : e ∈ must := by
  have hmem := (mem_lineTrace_iff e evs).mpr ⟨he, hne⟩
  rw [h.2] at hmem
  exact ((mem_lineTrace_iff e must).mp hmem).1

/-- Settles O28: the micro-steps touch the lines, the trace, the samples and the sequencing state only,
and none of them accepts a word. -/
theorem frameOfEveryCommand : Obligations.FrameOfEveryCommand := by
  unfold Obligations.FrameOfEveryCommand
  intro i s hi
  obtain ⟨evs, htrace, hevents⟩ := runCommand_trace Config.extraWaits i (program i) s
  refine ⟨_, evs, _, exec_eq_runCommand s hi, runCommand_fault .., runCommand_inputs ..,
    runCommand_earlier .., runCommand_seq .., htrace, fun w hw => ?_, runCommand_responses ..,
    runCommand_index ..⟩
  exact issue_notMem_microEvents _ _ _ (WithExtraDelays.mem_must hevents hw (by simp))

/-! ### The response and the samples (R57, R87) -/

theorem responseFits_responseOf (q : Running) : responseFits q.instr (responseOf q) = true := by
  obtain ⟨i, pos, shift, sample⟩ := q
  cases i <;> rfl

/-- Settles O29: the response is that of the sequencing state the command ends with. -/
theorem everyCommandGivesItsResponse : Obligations.EveryCommandGivesItsResponse := by
  unfold Obligations.EveryCommandGivesItsResponse
  intro i s hi
  have hrsp := runCommand_rsp Config.extraWaits i (program i) s
  refine ⟨_, _, exec_eq_runCommand s hi, runCommand_responses .., ?_, hrsp, ?_⟩
  · have hfits := responseFits_responseOf (commandEnd Config.extraWaits i (program i) s)
    rwa [commandEnd, storeAll_instr, ← commandEnd] at hfits
  · rw [readRsp, hrsp]

/-- Settles O30: the samples are the reads in the command's list. -/
theorem samplesPerCommand : Obligations.SamplesPerCommand := by
  unfold Obligations.SamplesPerCommand
  intro i s hi
  refine ⟨_, exec_eq_runCommand s hi, ?_⟩
  rw [runCommand_answers, program_reads hi]

/-! ### Further delays (R121) -/

/-- The ill-formed `RD` of the clock line takes no sample, every other command its own. -/
theorem program_reads_le (i : Instr) : (program i).countP Micro.isRead ≤ sampleCount i := by
  by_cases hi : WellFormed i
  · exact (program_reads hi).le
  · cases i with
    | rd l => cases l with
      | c => exact Nat.zero_le _
      | d => exact absurd rfl hi
    | _ => exact absurd rfl hi

/-- Settles O32: with Env's answers given, the samples are those answers under either placement, and the
line trace and the response depend on nothing else. -/
theorem extraDelaysChangeNothingElse : Obligations.ExtraDelaysChangeNothingElse := by
  unfold Obligations.ExtraDelaysChangeNothingElse
  intro slack slack' i s hanswers
  have hlevels : commandLevels slack i (program i) s = commandLevels slack' i (program i) s := by
    have hreads := (program_reads_le i).trans hanswers
    rw [commandLevels_of_answers _ _ _ _ hreads, commandLevels_of_answers _ _ _ _ hreads]
  refine ⟨?_, ?_, ?_, ?_, ?_⟩
  · rw [runCommand_dirs, runCommand_dirs]
  · rw [runCommand_lineTrace, runCommand_lineTrace, hlevels]
  · rw [runCommand_responses, runCommand_responses, commandEnd, commandEnd, hlevels]
  · rw [runCommand_answers, runCommand_answers]
  · rw [runCommand_fault, runCommand_fault]

end Sys2Proof.Machine
end

section
/-! PROOFS. The conditions of the byte commands by pre-state (R129, R132), a data line nobody moves
(R192), and the bus phase (R31, R181). -/

namespace Sys2Proof.Machine

/-! ### Wires and conditions (R25, R30) -/

/-- Settles O46: by what the block drives and, released, by what an agent pulls. -/
theorem wireIsTheWiredAnd : Obligations.WireIsTheWiredAnd := by
  unfold Obligations.WireIsTheWiredAnd
  intro s l pulled
  refine ⟨fun hlow => ?_, fun hrel hpulled => ?_, fun hrel hpulled => ?_⟩
  · rw [State.wireLevel, hlow, wire_low]
  · rw [State.wireLevel, hrel, hpulled]; rfl
  · rw [State.wireLevel, hrel, hpulled]; rfl

theorem conditionOf_eq_start_iff (x y : Dirs) :
    conditionOf x y = some .start ↔ x = ⟨.rel, .rel⟩ ∧ y = ⟨.rel, .low⟩ := by
  obtain ⟨xc, xd⟩ := x
  obtain ⟨yc, yd⟩ := y
  cases xc <;> cases yc <;> cases xd <;> cases yd <;> decide

theorem conditionOf_eq_stop_iff (x y : Dirs) :
    conditionOf x y = some .stop ↔ x = ⟨.rel, .low⟩ ∧ y = ⟨.rel, .rel⟩ := by
  obtain ⟨xc, xd⟩ := x
  obtain ⟨yc, yd⟩ := y
  cases xc <;> cases yc <;> cases xd <;> cases yd <;> decide

/-- Both conditions change D. -/
theorem conditionOf_of_d_eq {x y : Dirs} (h : x.d = y.d) : conditionOf x y = none := by
  cases hc : conditionOf x y with
  | none => rfl
  | some c =>
    cases c with
    | start =>
      obtain ⟨rfl, rfl⟩ := (conditionOf_eq_start_iff x y).mp hc
      cases h
    | stop =>
      obtain ⟨rfl, rfl⟩ := (conditionOf_eq_stop_iff x y).mp hc
      cases h

theorem wireCondition_eq (pullsC pullsD : Bool) (x y : Dirs) :
    wireCondition pullsC pullsD x y
      = if pullsC = false ∧ pullsD = false then conditionOf x y else none := by
  cases pullsC <;> cases pullsD <;> rfl

/-- Settles O48: each condition is one change of the directions out of sixteen. -/
theorem busConditions : Obligations.BusConditions := by
  unfold Obligations.BusConditions
  exact fun x y pullsC pullsD => ⟨conditionOf_eq_start_iff x y, conditionOf_eq_stop_iff x y,
    conditionOf_of_d_eq, wireCondition_eq pullsC pullsD x y⟩

/-! ### The byte commands by pre-state (R129, R132) -/

/-- The conditions of a command are those of its micro-steps, whose samples take some levels. -/
theorem exec_conditions {i : Instr} (hi : WellFormed i) {s t : State} {evs : Trace}
    (hexec : exec i s = .next t) (htrace : t.trace = s.trace ++ evs) :
    ∃ vs : List Level, vs.length = sampleCount i ∧
      conditions s.dirs evs = conditions s.dirs (microEvents (program i) vs) := by
  obtain ⟨t', evs', vs, hexec', ht⟩ := exec_commandEffect hi s
  obtain rfl : t = t' := by rw [hexec] at hexec'; injection hexec'
  obtain rfl := List.append_cancel_left (htrace.symm.trans ht.trace)
  exact ⟨vs, ht.levels_length, by rw [conditions_issue_cons, ht.events.conditions_eq]⟩

/-- With the clock released the first data bit of `WRB` is a condition exactly if it moves D; after it the
clock is low. -/
theorem wrb_conditions_of_clock_released (b : Byte) (v : Level) (y : Dir) :
    conditions ⟨.rel, y⟩ (microEvents (wrbProgram b) [v])
      = (conditionOf ⟨.rel, y⟩ ⟨.rel, if b.getLsbD 7 then .rel else .low⟩).toList := by
  have hfirst : ∀ (x : Level) (tr : Trace), conditions ⟨.rel, y⟩ (wrbBitEvents x ++ tr)
      = (conditionOf ⟨.rel, y⟩ ⟨.rel, if x then .rel else .low⟩).toList
        ++ conditions ⟨.low, if x then .rel else .low⟩ tr := by
    intro x tr
    cases x <;> cases y <;> rfl
  rw [wrbProgram_events, bitsMsbFirst, List.flatMap_cons, List.append_assoc, hfirst,
    conditions_wrbBits_of_clock_low _ _ _ fun z => by cases z <;> rfl, List.append_nil]

/-- Settles O20: only the first data bit can meet a released clock. -/
theorem conditionsOfWrb : Obligations.ConditionsOfWrb := by
  unfold Obligations.ConditionsOfWrb
  intro b s t evs hexec htrace
  obtain ⟨vs, hlen, hconds⟩ := exec_conditions rfl hexec htrace
  obtain ⟨v, rfl⟩ := List.length_eq_one_iff.1 hlen
  rw [hconds]
  refine ⟨wrb_conditions_of_clock_low b v, fun hd => ?_, fun hd => ?_⟩
  · rw [hd, program, wrb_conditions_of_clock_released]
    cases b.getLsbD 7 <;> rfl
  · rw [hd, program, wrb_conditions_of_clock_released]
    cases b.getLsbD 7 <;> rfl

/-- The ninth bit of `RDB` sets D while the clock is low. -/
theorem conditions_rdbAckEvents (k : Bool) :
    conditions ⟨.low, .rel⟩ [if k then Event.low .d else .rel .d, .rel .c, .wait, .low .c, .wait,
      .low .d] = [] := by
  cases k <;> rfl

/-- `RDB` releases D first; from there on D moves only while the clock is low. -/
theorem rdb_conditions (k : Bool) {vs : List Level} (h : vs.length = 8) (x : Dirs) :
    conditions x (microEvents (rdbProgram k) vs) = (conditionOf x (x.set .d .rel)).toList := by
  obtain ⟨s1, s2, s3, s4, s5, s6, s7, s8, rfl⟩ := exists_eq_of_length_eight h
  have hfirst : ∀ tr, conditions (x.set .d .rel) (rdbBitEvents s1 ++ tr)
      = conditions ⟨.low, .rel⟩ tr := by
    intro tr
    obtain ⟨c, d⟩ := x
    cases c <;> rfl
  rw [rdbProgram_events, conditions_cons, Event.effect, List.flatMap_cons, List.append_assoc, hfirst,
    conditions_rdbBits, conditions_rdbAckEvents, List.append_nil]

/-- Settles O24: the one condition is that of the first release of D. -/
theorem conditionsOfRdb : Obligations.ConditionsOfRdb := by
  unfold Obligations.ConditionsOfRdb
  intro k s t evs hexec htrace
  obtain ⟨vs, hlen, hconds⟩ := exec_conditions rfl hexec htrace
  rw [hconds, program, rdb_conditions k hlen, conditionOf_set_rel]
  exact ⟨fun hd => by simp [hd], fun hd => by simp [hd]⟩

/-! ### A data line nobody moves (R192) -/

theorem assembleByte_replicate (v : Level) :
    assembleByte (List.replicate 8 v) = if v then 0xFF else 0x00 := by
  cases v <;> rfl

/-- Settles O25: the ninth bit of `WRB` takes the first answer and `RDB` the other eight. -/
theorem stuckLineLooksLikeAckAndZero : Obligations.StuckLineLooksLikeAckAndZero := by
  unfold Obligations.StuckLineLooksLikeAckAndZero
  intro b k v s rest has
  obtain ⟨t, evs, v', hwrb, ht, hack⟩ := exec_wrb_effect b s
  obtain ⟨hv, hleft⟩ := ht.answered [v] (List.replicate 8 v ++ rest) rfl has
  obtain rfl := List.singleton_inj.1 hv
  obtain ⟨u, evs', vs, hrdb, hu, hbyte⟩ := exec_rdb_effect k t
  obtain ⟨rfl, hrest⟩ := hu.answered (List.replicate 8 v) rest (List.length_replicate ..) hleft
  refine ⟨t, u, hwrb, hrdb, ?_, hu.fault.trans ht.fault, hrest⟩
  rw [hbyte, hack, assembleByte_replicate, beq_false, List.append_assoc, List.singleton_append]

/-! ### The bus phase (R31) -/

/-- Settles O49: the phase takes the conditions in order, and the last event has at most one. -/
theorem busPhaseFollowsConditions : Obligations.BusPhaseFollowsConditions := by
  unfold Obligations.BusPhaseFollowsConditions
  refine fun pullsC pullsD => ⟨busPhase_nil_eq_idle pullsC pullsD, fun tr e => ?_⟩
  rw [busPhase, conditions_append, phaseAfter_append, conditions_singleton, ← busPhase]
  cases conditionOf (replay ⟨.rel, .rel⟩ tr) (e.effect (replay ⟨.rel, .rel⟩ tr)) with
  | none => rfl
  | some c => cases c <;> rfl

/-- A command whose last condition is `c` leaves the bus in the phase of `c`. -/
theorem busPhase_of_last_condition {i : Instr} {vs : List Level} {evs : Trace} {s t : State}
    {cs : List (Event × Condition)} {e : Event} {c : Condition} (hs : s.TraceLeadsToDirs)
    (ht : CommandEffect i vs evs s t)
    (hc : conditionEvents s.dirs (microEvents (program i) vs) = cs ++ [(e, c)])
    (pullsC pullsD : Bool) : busPhase pullsC pullsD t.trace = c.phase := by
  have hevs : conditions s.dirs evs = cs.map Prod.snd ++ [c] := by
    rw [conditions_eq_map_conditionEvents, ht.events.conditionEvents_eq, hc, List.map_append]
    rfl
  rw [busPhase, ht.trace, conditions_append, conditions_issue_cons, hs, hevs, ← List.append_assoc,
    phaseAfter_last]

/-- Settles O50: the last condition of `START` is its START, that of `STOP` its STOP. -/
theorem phaseAfterStartAndStop : Obligations.PhaseAfterStartAndStop := by
  unfold Obligations.PhaseAfterStartAndStop
  intro s hs
  constructor
  · obtain ⟨t, evs, vs, hexec, ht⟩ := exec_commandEffect (i := .start) rfl s
    exact ⟨t, hexec, busPhase_of_last_condition hs ht (start_conditionEvents s.dirs vs)⟩
  · obtain ⟨t, evs, vs, hexec, ht⟩ := exec_commandEffect (i := .stop) rfl s
    exact ⟨t, hexec, busPhase_of_last_condition hs ht (stop_conditionEvents s.dirs vs)⟩

/-! ### The phase on the wires (R30, R31) -/

theorem wireConditions_singleton (x : Dirs) (nowC nowD : Bool) (e : Event) :
    wireConditions x [(nowC, nowD)] [e] = (wireCondition nowC nowD x (e.effect x)).toList := by
  rw [wireConditions_cons, wireConditions_unpulled, conditions_nil, List.append_nil]

/-- Pulls that are all absent hide nothing. -/
theorem wireConditions_replicate_unpulled (x : Dirs) (tr : Trace) :
    wireConditions x (List.replicate tr.length (false, false)) tr = conditions x tr := by
  induction tr generalizing x with
  | nil => exact wireConditions_unpulled x []
  | cons e es ih =>
    rw [List.length_cons, List.replicate_succ, wireConditions_cons, ih, conditions_cons]
    rfl

/-- Settles O60: the last event has at most its one condition, and none on the wires while C or D is
pulled. -/
theorem phaseOnTheWiresFollowsUnpulledConditions :
    Obligations.PhaseOnTheWiresFollowsUnpulledConditions := by
  unfold Obligations.PhaseOnTheWiresFollowsUnpulledConditions
  intro pullsC pullsD pulls tr
  refine ⟨rfl, fun hlen nowC nowD e => ?_, ?_⟩
  · rw [busPhaseOnWires, wireConditions_append _ hlen, phaseAfter_append, wireConditions_singleton,
      ← busPhaseOnWires, wireCondition_eq]
    split
    · cases conditionOf (replay ⟨.rel, .rel⟩ tr) (e.effect (replay ⟨.rel, .rel⟩ tr)) with
      | none => rfl
      | some c => cases c <;> rfl
    · rfl
  · rw [busPhaseOnWires, wireConditions_replicate_unpulled, busPhase]

end Sys2Proof.Machine
end

section
/-! PROOFS. Counts and delays of the micro-step lists (R195, R196), and the framing of a read burst (R82,
R174). -/

namespace Sys2Proof.Machine

/-! ### Counts (R195) -/

theorem wrbProgram_length (b : Byte) : (wrbProgram b).length = 55 := rfl

theorem rdbProgram_length (k : Bool) : (rdbProgram k).length = 47 := rfl

theorem wrbBit_waits (b : Byte) (i : Fin 8) : (wrbBit b i).count .wait = 3 := by
  simp [wrbBit]

theorem wrbProgram_waits (b : Byte) : (wrbProgram b).count .wait = 26 := by
  have hbits : (bitIndices.flatMap (wrbBit b)).count .wait = 24 := by
    have heach : List.count .wait ∘ wrbBit b = fun _ => 3 := funext (wrbBit_waits b)
    rw [List.count_flatMap, heach]
    rfl
  rw [wrbProgram, List.count_append, hbits]
  rfl

theorem rdbProgram_waits (k : Bool) : (rdbProgram k).count .wait = 18 := by
  cases k <;> rfl

/-- Settles O56: the counts are read off the lists; a least duration is the count of delays. -/
theorem microStepAndDelayCounts : Obligations.MicroStepAndDelayCounts := by
  unfold Obligations.MicroStepAndDelayCounts
  refine ⟨fun l => ⟨rfl, rfl⟩, fun l => ⟨rfl, rfl⟩, ⟨rfl, rfl⟩, ⟨rfl, rfl⟩, ⟨rfl, rfl⟩,
    fun b => ⟨wrbProgram_length b, ?_⟩, fun k => ⟨rdbProgram_length k, ?_⟩⟩
  · rw [minDuration, waitCount, program, wrbProgram_waits]
  · rw [minDuration, waitCount, program, rdbProgram_waits]

/-! ### Delays in the clock phases (R196) -/

@[simp] theorem setD_ne_rel_c (x : Level) : setD x ≠ .rel .c := by cases x <;> simp [setD]
@[simp] theorem setD_ne_low_c (x : Level) : setD x ≠ .low .c := by cases x <;> simp [setD]

/-- Each data bit of `WRB` is one clock-high phase, with one delay. -/
theorem phaseDelays_high_wrbBits (b : Byte) (is : List (Fin 8)) (ms : List Micro) :
    phaseDelays (.rel .c) (.low .c) none (is.flatMap (wrbBit b) ++ ms)
      = List.replicate is.length 1 ++ phaseDelays (.rel .c) (.low .c) none ms := by
  induction is with
  | nil => rfl
  | cons i is ih =>
    rw [List.flatMap_cons, List.append_assoc, List.length_cons, List.replicate_succ,
      List.cons_append, ← ih]
    simp [wrbBit, phaseDelays]

/-- Each further data bit of `WRB` ends a clock-low phase of two delays and begins the next. -/
theorem phaseDelays_low_wrbBits (b : Byte) (is : List (Fin 8)) (ms : List Micro) :
    phaseDelays (.low .c) (.rel .c) (some 1) (is.flatMap (wrbBit b) ++ ms)
      = List.replicate is.length 2 ++ phaseDelays (.low .c) (.rel .c) (some 1) ms := by
  induction is with
  | nil => rfl
  | cons i is ih =>
    rw [List.flatMap_cons, List.append_assoc, List.length_cons, List.replicate_succ,
      List.cons_append, ← ih]
    simp [wrbBit, phaseDelays]

theorem clockHighDelays_wrb (b : Byte) :
    clockHighDelays (.wrb b) = [1, 1, 1, 1, 1, 1, 1, 1, 1] := by
  rw [clockHighDelays, program, wrbProgram, phaseDelays_high_wrbBits]
  rfl

theorem clockLowDelays_wrb (b : Byte) : clockLowDelays (.wrb b) = [2, 2, 2, 2, 2, 2, 2, 1] := by
  have hfirst : ∀ ms, phaseDelays (.low .c) (.rel .c) none (wrbBit b 7 ++ ms)
      = phaseDelays (.low .c) (.rel .c) (some 1) ms := by
    intro ms
    simp [wrbBit, phaseDelays]
  rw [clockLowDelays, program, wrbProgram, bitIndices, List.flatMap_cons, List.append_assoc, hfirst,
    phaseDelays_low_wrbBits]
  rfl

/-- Settles O57: the delays of the byte commands are those of their bits. -/
theorem clockPhasesHoldDelays : Obligations.ClockPhasesHoldDelays := by
  unfold Obligations.ClockPhasesHoldDelays
  refine ⟨fun b => ⟨clockHighDelays_wrb b, clockLowDelays_wrb b⟩, fun k => ?_,
    rfl, rfl, rfl, rfl, rfl⟩
  cases k with
  | false => exact ⟨rfl, rfl⟩
  | true => exact ⟨rfl, rfl⟩

/-! ### A read burst (R82, R174) -/

/-- After an ACK the host still owes the slave its NACK, which the end of the burst gives. -/
theorem hostFramed_burst_tail (n : Nat) :
    hostFramed .inside (List.replicate n (.rdb true) ++ [.rdb false, .stop]) = true ∧
    hostFramed .afterAck (List.replicate n (.rdb true) ++ [.rdb false, .stop]) = true := by
  induction n with
  | zero => exact ⟨rfl, rfl⟩
  | succ n ih => exact ⟨ih.2, ih.2⟩

/-- Settles O58: the commands before the reads frame them, and the reads close with their NACK. -/
theorem burstEndsWithOneNack : Obligations.BurstEndsWithOneNack := by
  unfold Obligations.BurstEndsWithOneNack
  refine fun sa a n => ⟨rfl, _, rfl, ?_, ?_⟩
  · simp [pointerPhase]
  · rw [List.append_assoc]
    exact (hostFramed_burst_tail n).1

end Sys2Proof.Machine
end
